-- ==== Sys2Proof/Word.lean ====
section
/-! DEFINITION. The word types of the CORE: bytes, 16-bit words, 12-bit addresses and register numbers. -/

namespace Sys2Proof

/-- A memory cell, a general register, a timer (R6: MEM_CELL, V_WIDTH). -/
abbrev Byte := BitVec 8

/-- An opcode, I, pc, a stack entry (R6: I_WIDTH, PC_WIDTH). -/
abbrev Word := BitVec 16

/-- The address immediate NNN (R81). -/
abbrev Addr := BitVec 12

/-- The number of a general register V0..VF (R21) or of a key line (R33). -/
abbrev Reg := Fin 16

end Sys2Proof
end

