-- ==== Sys2Proof/Syntax.lean ====
section
/-! DEFINITION. The 34 instructions (R2, R86), one constructor per row of spec/opcode_table.json, in the table's
order. Register fields and immediates carry their widths in their types; N is a count (R82), bounded in WellFormed. -/

namespace Sys2Proof

inductive Instr where
  /-- 00E0 CLS (R110) -/
  | cls
  /-- 00EE RET (R130) -/
  | ret
  /-- 1NNN JP (R131) -/
  | jp (nnn : Addr)
  /-- 2NNN CALL (R132) -/
  | call (nnn : Addr)
  /-- 3XNN SE_IMM (R150) -/
  | seImm (x : Reg) (nn : Byte)
  /-- 4XNN SNE_IMM (R151) -/
  | sneImm (x : Reg) (nn : Byte)
  /-- 5XY0 SE_REG (R152) -/
  | seReg (x y : Reg)
  /-- 6XNN LD_IMM (R170) -/
  | ldImm (x : Reg) (nn : Byte)
  /-- 7XNN ADD_IMM (R171) -/
  | addImm (x : Reg) (nn : Byte)
  /-- 8XY0 LD_REG (R172) -/
  | ldReg (x y : Reg)
  /-- 8XY1 OR (R173) -/
  | orReg (x y : Reg)
  /-- 8XY2 AND (R174) -/
  | andReg (x y : Reg)
  /-- 8XY3 XOR (R175) -/
  | xorReg (x y : Reg)
  /-- 8XY4 ADD_REG (R176) -/
  | addReg (x y : Reg)
  /-- 8XY5 SUB (R177) -/
  | sub (x y : Reg)
  /-- 8XY6 SHR (R178); y is part of the word and is not read (R88) -/
  | shr (x y : Reg)
  /-- 8XY7 SUBN (R179) -/
  | subn (x y : Reg)
  /-- 8XYE SHL (R180); y is part of the word and is not read (R88) -/
  | shl (x y : Reg)
  /-- 9XY0 SNE_REG (R153) -/
  | sneReg (x y : Reg)
  /-- ANNN LD_I (R200) -/
  | ldI (nnn : Addr)
  /-- BNNN JP_V0 (R133) -/
  | jpV0 (nnn : Addr)
  /-- CXNN RND (R181) -/
  | rnd (x : Reg) (nn : Byte)
  /-- DXYN DRW (R111); n rows -/
  | drw (x y : Reg) (n : Nat)
  /-- EX9E SKP (R154) -/
  | skp (x : Reg)
  /-- EXA1 SKNP (R155) -/
  | sknp (x : Reg)
  /-- FX07 LD_VX_DT (R220) -/
  | ldVxDt (x : Reg)
  /-- FX0A LD_VX_K (R221) -/
  | ldVxK (x : Reg)
  /-- FX15 LD_DT_VX (R222) -/
  | ldDtVx (x : Reg)
  /-- FX18 LD_ST_VX (R223) -/
  | ldStVx (x : Reg)
  /-- FX1E ADD_I_VX (R201) -/
  | addIVx (x : Reg)
  /-- FX29 LD_F_VX (R202) -/
  | ldFVx (x : Reg)
  /-- FX33 LD_B_VX (R203) -/
  | ldBVx (x : Reg)
  /-- FX55 LD_MEM_VX (R204) -/
  | ldMemVx (x : Reg)
  /-- FX65 LD_VX_MEM (R205) -/
  | ldVxMem (x : Reg)
  deriving DecidableEq, Repr

end Sys2Proof
end

