-- ==== Sys2Proof/Decode.lean ====
section
/-! DEFINITION. From bytes to instructions and back (30_encoding.md): the fields of a word, the decoder, the encoder,
and the opcode map of R86 as a table. -/

namespace Sys2Proof

/-! ## Fields (R81) -/

/-- The class, op[15:12]. -/
def opClass (op : Word) : BitVec 4 := op.extractLsb' 12 4

/-- X, op[11:8], a register number. -/
def fieldX (op : Word) : Reg := ⟨(op.extractLsb' 8 4).toNat, (op.extractLsb' 8 4).isLt⟩

/-- Y, op[7:4], a register number. -/
def fieldY (op : Word) : Reg := ⟨(op.extractLsb' 4 4).toNat, (op.extractLsb' 4 4).isLt⟩

/-- N, op[3:0]. -/
def fieldN (op : Word) : BitVec 4 := op.extractLsb' 0 4

/-- NN, op[7:0]. -/
def fieldNN (op : Word) : Byte := op.extractLsb' 0 8

/-- NNN, op[11:0]. -/
def fieldNNN (op : Word) : Addr := op.extractLsb' 0 12

/-- The big-endian word of two bytes (R57): the byte at the lower address is bits 15:8. -/
def wordOfBytes (hi lo : Byte) : Word := hi ++ lo

/-- The byte at the lower address of a stored word (R57). -/
def highByte (op : Word) : Byte := op.extractLsb' 8 8

/-- The byte at the higher address of a stored word (R57). -/
def lowByte (op : Word) : Byte := op.extractLsb' 0 8

/-! ## Decoding (R85, R86, R88, R89) -/

/-- Class 8: the selector N picks the operation; N = 8..D and F are illegal (R89). -/
def decodeClass8 (x y : Reg) (n : BitVec 4) : Option Instr :=
  if n = 0x0#4 then some (.ldReg x y)
  else if n = 0x1#4 then some (.orReg x y)
  else if n = 0x2#4 then some (.andReg x y)
  else if n = 0x3#4 then some (.xorReg x y)
  else if n = 0x4#4 then some (.addReg x y)
  else if n = 0x5#4 then some (.sub x y)
  else if n = 0x6#4 then some (.shr x y)
  else if n = 0x7#4 then some (.subn x y)
  else if n = 0xE#4 then some (.shl x y)
  else none

/-- Class F: the selector NN picks the operation (R86). -/
def decodeClassF (x : Reg) (nn : Byte) : Option Instr :=
  if nn = 0x07#8 then some (.ldVxDt x)
  else if nn = 0x0A#8 then some (.ldVxK x)
  else if nn = 0x15#8 then some (.ldDtVx x)
  else if nn = 0x18#8 then some (.ldStVx x)
  else if nn = 0x1E#8 then some (.addIVx x)
  else if nn = 0x29#8 then some (.ldFVx x)
  else if nn = 0x33#8 then some (.ldBVx x)
  else if nn = 0x55#8 then some (.ldMemVx x)
  else if nn = 0x65#8 then some (.ldVxMem x)
  else none

/-- The instruction of a word, or none where the word matches no row of the table (R85). Every fixed digit of a
pattern must match (R88). -/
def decodeWord (op : Word) : Option Instr :=
  match (opClass op).toNat with
  | 0x0 => if op = 0x00E0#16 then some .cls else if op = 0x00EE#16 then some .ret else none
  | 0x1 => some (.jp (fieldNNN op))
  | 0x2 => some (.call (fieldNNN op))
  | 0x3 => some (.seImm (fieldX op) (fieldNN op))
  | 0x4 => some (.sneImm (fieldX op) (fieldNN op))
  | 0x5 => if fieldN op = 0#4 then some (.seReg (fieldX op) (fieldY op)) else none
  | 0x6 => some (.ldImm (fieldX op) (fieldNN op))
  | 0x7 => some (.addImm (fieldX op) (fieldNN op))
  | 0x8 => decodeClass8 (fieldX op) (fieldY op) (fieldN op)
  | 0x9 => if fieldN op = 0#4 then some (.sneReg (fieldX op) (fieldY op)) else none
  | 0xA => some (.ldI (fieldNNN op))
  | 0xB => some (.jpV0 (fieldNNN op))
  | 0xC => some (.rnd (fieldX op) (fieldNN op))
  | 0xD => some (.drw (fieldX op) (fieldY op) (fieldN op).toNat)
  | 0xE =>
    if fieldNN op = 0x9E#8 then some (.skp (fieldX op))
    else if fieldNN op = 0xA1#8 then some (.sknp (fieldX op))
    else none
  | 0xF => decodeClassF (fieldX op) (fieldNN op)
  | _ => none

/-- Why the decoder gives no instruction. -/
inductive DecodeReject where
  /-- Fewer than the two bytes of an instruction (R80). The fetch never hands over so few (R83). -/
  | truncated
  /-- The word matches no row of the opcode table (R89). -/
  | illegalWord (op : Word)
  deriving DecidableEq, Repr

/-- The decoder on any bytes: the first instruction and the bytes after it. -/
def decode : List Byte → Except DecodeReject (Instr × List Byte)
  | hi :: lo :: rest =>
    match decodeWord (wordOfBytes hi lo) with
    | some i => .ok (i, rest)
    | none => .error (.illegalWord (wordOfBytes hi lo))
  | [_] => .error .truncated
  | [] => .error .truncated

/-- What the decoder reads from the opcode table's bits w of width nbits (a row of this table has 16 bits, one
big-endian word). -/
def decodeTableWord (nbits w : Nat) : Option Instr :=
  let op : Word := BitVec.ofNat 16 (w % 2 ^ nbits)
  match decode [highByte op, lowByte op] with
  | .ok (i, _) => some i
  | .error _ => none

/-! ## Encoding (R87) -/

/-- Format A: class, NNN. -/
def wordA (cls : BitVec 4) (nnn : Addr) : Word := cls ++ nnn

/-- Formats R and K: class, X, then NN or the selector NN. -/
def wordR (cls : BitVec 4) (x : Reg) (nn : Byte) : Word := (cls ++ BitVec.ofNat 4 x.val) ++ nn

/-- Formats P and D: class, X, Y, then the selector or N. -/
def wordP (cls : BitVec 4) (x y : Reg) (n : BitVec 4) : Word :=
  ((cls ++ BitVec.ofNat 4 x.val) ++ BitVec.ofNat 4 y.val) ++ n

/-- The word of an instruction (R86, R87). -/
def encode : Instr → Word
  | .cls => 0x00E0#16
  | .ret => 0x00EE#16
  | .jp nnn => wordA 0x1#4 nnn
  | .call nnn => wordA 0x2#4 nnn
  | .seImm x nn => wordR 0x3#4 x nn
  | .sneImm x nn => wordR 0x4#4 x nn
  | .seReg x y => wordP 0x5#4 x y 0x0#4
  | .ldImm x nn => wordR 0x6#4 x nn
  | .addImm x nn => wordR 0x7#4 x nn
  | .ldReg x y => wordP 0x8#4 x y 0x0#4
  | .orReg x y => wordP 0x8#4 x y 0x1#4
  | .andReg x y => wordP 0x8#4 x y 0x2#4
  | .xorReg x y => wordP 0x8#4 x y 0x3#4
  | .addReg x y => wordP 0x8#4 x y 0x4#4
  | .sub x y => wordP 0x8#4 x y 0x5#4
  | .shr x y => wordP 0x8#4 x y 0x6#4
  | .subn x y => wordP 0x8#4 x y 0x7#4
  | .shl x y => wordP 0x8#4 x y 0xE#4
  | .sneReg x y => wordP 0x9#4 x y 0x0#4
  | .ldI nnn => wordA 0xA#4 nnn
  | .jpV0 nnn => wordA 0xB#4 nnn
  | .rnd x nn => wordR 0xC#4 x nn
  | .drw x y n => wordP 0xD#4 x y (BitVec.ofNat 4 n)
  | .skp x => wordR 0xE#4 x 0x9E#8
  | .sknp x => wordR 0xE#4 x 0xA1#8
  | .ldVxDt x => wordR 0xF#4 x 0x07#8
  | .ldVxK x => wordR 0xF#4 x 0x0A#8
  | .ldDtVx x => wordR 0xF#4 x 0x15#8
  | .ldStVx x => wordR 0xF#4 x 0x18#8
  | .addIVx x => wordR 0xF#4 x 0x1E#8
  | .ldFVx x => wordR 0xF#4 x 0x29#8
  | .ldBVx x => wordR 0xF#4 x 0x33#8
  | .ldMemVx x => wordR 0xF#4 x 0x55#8
  | .ldVxMem x => wordR 0xF#4 x 0x65#8

/-- The two bytes of an instruction in the order they are stored (R57). -/
def encodeBytes (i : Instr) : List Byte := [highByte (encode i), lowByte (encode i)]

/-! ## The opcode map (R86) as a table -/

/-- A row of the opcode map: (word & mask) = pattern. -/
structure OpcodeRow where
  mnemonic : String
  pattern : Word
  mask : Word
  deriving DecidableEq, Repr

/-- The word belongs to the row (R85). -/
def OpcodeRow.covers (r : OpcodeRow) (op : Word) : Bool := op &&& r.mask == r.pattern

/-- The row of each instruction: the match and mask columns of R86. -/
def Instr.row : Instr → OpcodeRow
  | .cls => ⟨"CLS", 0x00E0#16, 0xFFFF#16⟩
  | .ret => ⟨"RET", 0x00EE#16, 0xFFFF#16⟩
  | .jp _ => ⟨"JP", 0x1000#16, 0xF000#16⟩
  | .call _ => ⟨"CALL", 0x2000#16, 0xF000#16⟩
  | .seImm _ _ => ⟨"SE_IMM", 0x3000#16, 0xF000#16⟩
  | .sneImm _ _ => ⟨"SNE_IMM", 0x4000#16, 0xF000#16⟩
  | .seReg _ _ => ⟨"SE_REG", 0x5000#16, 0xF00F#16⟩
  | .ldImm _ _ => ⟨"LD_IMM", 0x6000#16, 0xF000#16⟩
  | .addImm _ _ => ⟨"ADD_IMM", 0x7000#16, 0xF000#16⟩
  | .ldReg _ _ => ⟨"LD_REG", 0x8000#16, 0xF00F#16⟩
  | .orReg _ _ => ⟨"OR", 0x8001#16, 0xF00F#16⟩
  | .andReg _ _ => ⟨"AND", 0x8002#16, 0xF00F#16⟩
  | .xorReg _ _ => ⟨"XOR", 0x8003#16, 0xF00F#16⟩
  | .addReg _ _ => ⟨"ADD_REG", 0x8004#16, 0xF00F#16⟩
  | .sub _ _ => ⟨"SUB", 0x8005#16, 0xF00F#16⟩
  | .shr _ _ => ⟨"SHR", 0x8006#16, 0xF00F#16⟩
  | .subn _ _ => ⟨"SUBN", 0x8007#16, 0xF00F#16⟩
  | .shl _ _ => ⟨"SHL", 0x800E#16, 0xF00F#16⟩
  | .sneReg _ _ => ⟨"SNE_REG", 0x9000#16, 0xF00F#16⟩
  | .ldI _ => ⟨"LD_I", 0xA000#16, 0xF000#16⟩
  | .jpV0 _ => ⟨"JP_V0", 0xB000#16, 0xF000#16⟩
  | .rnd _ _ => ⟨"RND", 0xC000#16, 0xF000#16⟩
  | .drw _ _ _ => ⟨"DRW", 0xD000#16, 0xF000#16⟩
  | .skp _ => ⟨"SKP", 0xE09E#16, 0xF0FF#16⟩
  | .sknp _ => ⟨"SKNP", 0xE0A1#16, 0xF0FF#16⟩
  | .ldVxDt _ => ⟨"LD_VX_DT", 0xF007#16, 0xF0FF#16⟩
  | .ldVxK _ => ⟨"LD_VX_K", 0xF00A#16, 0xF0FF#16⟩
  | .ldDtVx _ => ⟨"LD_DT_VX", 0xF015#16, 0xF0FF#16⟩
  | .ldStVx _ => ⟨"LD_ST_VX", 0xF018#16, 0xF0FF#16⟩
  | .addIVx _ => ⟨"ADD_I_VX", 0xF01E#16, 0xF0FF#16⟩
  | .ldFVx _ => ⟨"LD_F_VX", 0xF029#16, 0xF0FF#16⟩
  | .ldBVx _ => ⟨"LD_B_VX", 0xF033#16, 0xF0FF#16⟩
  | .ldMemVx _ => ⟨"LD_MEM_VX", 0xF055#16, 0xF0FF#16⟩
  | .ldVxMem _ => ⟨"LD_VX_MEM", 0xF065#16, 0xF0FF#16⟩

/-- One instruction of every row, in the table's order; its operands do not matter to its row. -/
def rowExamples : List Instr :=
  [.cls, .ret, .jp 0, .call 0, .seImm 0 0, .sneImm 0 0, .seReg 0 0, .ldImm 0 0, .addImm 0 0, .ldReg 0 0] ++
  [.orReg 0 0, .andReg 0 0, .xorReg 0 0, .addReg 0 0, .sub 0 0, .shr 0 0, .subn 0 0, .shl 0 0, .sneReg 0 0] ++
  [.ldI 0, .jpV0 0, .rnd 0 0, .drw 0 0 0, .skp 0, .sknp 0, .ldVxDt 0, .ldVxK 0, .ldDtVx 0, .ldStVx 0] ++
  [.addIVx 0, .ldFVx 0, .ldBVx 0, .ldMemVx 0, .ldVxMem 0]

/-- The opcode map of R86: its 34 rows. -/
def opcodeTable : List OpcodeRow := rowExamples.map Instr.row

end Sys2Proof
end

