-- ==== Sys2Proof/Config.lean ====
section
/-! DEFINITION. What is fixed for one machine: the TYPES of the implementation parameters of rule R6, and the free
value of CXNN. The CORE's parameter values are `Sys2Proof.Machine.coreParams` (Machine/Params.lean). -/

namespace Sys2Proof

/-- SPRITE_ROW_WIDTH (R6, D12): the CORE draws eight columns of a sprite row, the reference code seven. -/
inductive SpriteRowWidth where
  | eight
  | seven
  deriving DecidableEq, Repr

/-- OFFSCREEN_POLICY (R6, D13): what a set sprite bit outside the 64×32 grid does. -/
inductive OffscreenPolicy where
  | fault
  | clip
  deriving DecidableEq, Repr

/-- VF_OPERAND_ORDER (R6, R9, D11): whether VF is written before or after the result register. -/
inductive VfOperandOrder where
  | sequential
  | latched
  deriving DecidableEq, Repr

/-- TIMER_COUPLING (R6, R262, D17). PER_STEP_TICK_ON_FAULT, which is open and used only under `perStep`, is that
constructor's argument. -/
inductive TimerCoupling where
  | decoupled
  | perStep (tickOnFault : Bool)
  deriving DecidableEq, Repr

/-- The implementation parameters of R6 that have more than one value. RNG is `Config.rngByte`. -/
structure Params where
  spriteRowWidth : SpriteRowWidth
  offscreenPolicy : OffscreenPolicy
  vfOperandOrder : VfOperandOrder
  timerCoupling : TimerCoupling
  /-- FONT: the 80 bytes at 0x000–0x04F (R27). -/
  font : Vector Byte 80
  deriving DecidableEq, Repr

/-- The FREE VALUE of CXNN (R181, R263, D20): the byte the random source gives at draw number n. It has no body, so
nothing can be proved of any draw or of two draws together. DESIGN CHOICE (log entry 1): safe. -/
opaque Config.rngByte : Nat → Byte

end Sys2Proof
end

