-- ==== Sys2Proof/Machine/State.lean ====
section
/-! DEFINITION. The state of the CORE: every row of the table of 10_state.md R20, and the draw index that stands for
the random input; its value after INIT; and the reasons a step may stop. -/

namespace Sys2Proof.Machine

/-- Memory as (address, byte) pairs in the canonical form of `Memory.wf` (Machine/Ops.lean): an address that is not
listed reads as it does after INIT. -/
abbrev Memory := List Host.Cell

/-- 32 rows of 64 pixels (R31): `fb[y][x]`, true for on. -/
abbrev Framebuffer := Vector (Vector Bool 64) 32

/-- The fault latch's record (R36). -/
structure FaultRecord where
  cause : Byte
  pc : Word
  opcode : Word
  info0 : Word
  info1 : Word
  deriving DecidableEq, Repr

structure State where
  /-- The general registers V0..VF; VF is also the flag (R21, R22). -/
  V : Vector Byte 16
  /-- The index register (R23). -/
  I : Word
  /-- The address of the next instruction, of the current one while it executes (R24). -/
  pc : Word
  /-- How many entries of the call stack are in use, 0..16 (R28). -/
  sp : Fin 17
  /-- The call stack (R28); entries at sp and above are dead but kept (R29). -/
  stack : Vector Word 16
  /-- The delay timer (R30). -/
  DT : Byte
  /-- The sound timer (R30). -/
  ST : Byte
  /-- Memory, 0x000–0xFFF (R26). -/
  mem : Memory
  /-- The framebuffer (R31). -/
  fb : Framebuffer
  /-- The redraw flag (R32). -/
  redraw : Bool
  /-- The key lines, true for pressed (R33). -/
  key : Vector Bool 16
  /-- The fault latch (R36). -/
  fault : Option FaultRecord
  /-- THE MODEL'S OWN, no state of the CORE: how many random bytes have been drawn (log entry 1). -/
  draws : Nat
  deriving DecidableEq, Repr

/-- The causes of a STEP fault (R242). A cause is TAKEN as the spec describes (R240: the latch is set, nothing else
changes), which is a next state: no step of this model answers Outcome.fault with any of them. Safe: a run never ends
early, and the latched record says what happened. -/
inductive Fault where
  /-- Raised by the fetch when pc > 0xFFE (R83, R245). Safe: latched, see above. -/
  | fetchOutOfRange
  /-- Raised by decode when no row matches (R89, R246). Safe: latched, see above. -/
  | decodeFault
  /-- Raised by 2NNN when sp = 16 (R132, R243). Safe: latched, see above. -/
  | stackOverflow
  /-- Raised by 00EE when sp = 0 (R130, R243). Safe: latched, see above. -/
  | stackUnderflow
  /-- Raised by DXYN, FX33, FX55, FX65 when the block leaves memory (R53, R244). Safe: latched, see above. -/
  | memoryOutOfRange
  /-- Raised by EX9E, EXA1 when VX > 15 (R154, R155, R247). Safe: latched, see above. -/
  | keyIndexOutOfRange
  /-- Raised by DXYN when a set bit lands off the grid and OFFSCREEN_POLICY = fault (R111, R248). Safe: see above. -/
  | screenOutOfRange
  deriving DecidableEq, Repr

/-- Why exec has no meaning for an instruction. Every instruction of the table has one. -/
inductive Refusal where
  /-- An arm of exec with no meaning yet; no arm is left so. Safe: the machine would stop. -/
  | notModelled (mnemonic : String)
  deriving DecidableEq, Repr

/-- The machine right after INIT (R290): every field at the reset value of R20. Memory lists nothing, which reads as
the font at 0x000–0x04F and zero elsewhere. `draws` is the model's own (DESIGN CHOICE 0, log entry 1). -/
def State.reset : State where
  V := Vector.replicate 16 0x00#8
  I := 0x0000#16
  pc := 0x0200#16
  sp := 0
  stack := Vector.replicate 16 0x0000#16
  DT := 0x00#8
  ST := 0x00#8
  mem := []
  fb := Vector.replicate 32 (Vector.replicate 64 false)
  redraw := true
  key := Vector.replicate 16 false
  fault := none
  draws := 0

end Sys2Proof.Machine
end

