-- ==== Sys2Proof/Machine/Params.lean ====
section
/-! DEFINITION. The values the CORE gives the implementation parameters (R6), the font of R27 among them. -/

namespace Sys2Proof.Machine

/-- The glyph table of R27: sixteen glyphs of five bytes, most significant bit leftmost. The spec takes the byte values
from general knowledge (D19), so they are PRESUMED (log entry 2): unsafe for a claim that reads a glyph's bytes. -/
def fontTable : List Byte :=
  [0xF0#8, 0x90#8, 0x90#8, 0x90#8, 0xF0#8] ++ [0x20#8, 0x60#8, 0x20#8, 0x20#8, 0x70#8] ++
  [0xF0#8, 0x10#8, 0xF0#8, 0x80#8, 0xF0#8] ++ [0xF0#8, 0x10#8, 0xF0#8, 0x10#8, 0xF0#8] ++
  [0x90#8, 0x90#8, 0xF0#8, 0x10#8, 0x10#8] ++ [0xF0#8, 0x80#8, 0xF0#8, 0x10#8, 0xF0#8] ++
  [0xF0#8, 0x80#8, 0xF0#8, 0x90#8, 0xF0#8] ++ [0xF0#8, 0x10#8, 0x20#8, 0x40#8, 0x40#8] ++
  [0xF0#8, 0x90#8, 0xF0#8, 0x90#8, 0xF0#8] ++ [0xF0#8, 0x90#8, 0xF0#8, 0x10#8, 0xF0#8] ++
  [0xF0#8, 0x90#8, 0xF0#8, 0x90#8, 0x90#8] ++ [0xE0#8, 0x90#8, 0xE0#8, 0x90#8, 0xE0#8] ++
  [0xF0#8, 0x80#8, 0x80#8, 0x80#8, 0xF0#8] ++ [0xE0#8, 0x90#8, 0x90#8, 0x90#8, 0xE0#8] ++
  [0xF0#8, 0x80#8, 0xF0#8, 0x80#8, 0xF0#8] ++ [0xF0#8, 0x80#8, 0xF0#8, 0x80#8, 0x80#8]

/-- The parameter values of the CORE (R6; D11, D12, D13, D17, D19). -/
def coreParams : Params where
  spriteRowWidth := .eight
  offscreenPolicy := .fault
  vfOperandOrder := .sequential
  timerCoupling := .decoupled
  font := ⟨fontTable.toArray, rfl⟩

/-- SPRITE_ROW_WIDTH as a number of columns. -/
def rowColumns : SpriteRowWidth → Nat
  | .eight => 8
  | .seven => 7

/-! ## The fixed parameters of R6 -/

/-- MEM_SIZE. -/
abbrev memSize : Nat := 4096

/-- The highest address there is, 0xFFF. -/
abbrev lastAddress : Nat := 0xFFF

/-- PROG_BASE. -/
abbrev progBase : Nat := 0x200

/-- PROG_MAX. -/
abbrev progMax : Nat := 4096 - 512

/-- FB_W. -/
abbrev fbWidth : Nat := 64

/-- FB_H. -/
abbrev fbHeight : Nat := 32

/-- FLAG_REG: VF. -/
abbrev flagReg : Reg := 15

/-- INSN_BYTES. -/
abbrev insnBytes : Nat := 2

end Sys2Proof.Machine
end

