-- ==== Sys2Proof/Machine/Ops.lean ====
section
/-! DEFINITION. The named operations over memory, registers, stack, framebuffer and key lines; taking a fault; the
fetch; and the one cycle every STEP runs. -/

namespace Sys2Proof.Machine

/-- What a meaning answers. -/
abbrev Result := Host.Outcome State Fault Refusal

/-! ## Memory (R26, R50) -/

/-- What an address that memory does not list reads as: its value after INIT, the font at 0x000–0x04F and 0x00
elsewhere (R27, R56, R290). -/
def unlistedByte (a : Nat) : Byte := fontTable.getD a 0x00#8

/-- One byte of memory (R52: translation is the identity). -/
def readByte : Memory → Nat → Byte
  | [], a => unlistedByte a
  | (k, b) :: rest, a => if k = a then b else readByte rest a

/-- Put a byte before the cells of higher addresses, unless it is what the unlisted address reads as. -/
def consCell (a : Nat) (b : Byte) (m : Memory) : Memory := if b = unlistedByte a then m else (a, b) :: m

/-- Write one byte, keeping the canonical form. -/
def writeByte : Memory → Nat → Byte → Memory
  | [], a, b => consCell a b []
  | (k, c) :: rest, a, b =>
    if a < k then consCell a b ((k, c) :: rest)
    else if a = k then consCell a b rest
    else (k, c) :: writeByte rest a b

/-- The bytes at b, b + 1, …, b + n − 1, in ascending order (R61). -/
def readBlock (m : Memory) (b n : Nat) : List Byte := (List.range n).map fun k => readByte m (b + k)

/-- Write consecutive bytes from b upward, in ascending order (R61). -/
def writeBlock (m : Memory) (b : Nat) : List Byte → Memory
  | [] => m
  | v :: vs => writeBlock (writeByte m b v) (b + 1) vs

/-- The canonical form: addresses strictly rising, all of them in 0x000–0xFFF, no cell equal to what its address would
read as unlisted. -/
abbrev Memory.wf (m : Memory) : Prop :=
  m.Pairwise (fun p q => p.1 < q.1) ∧ ∀ c ∈ m, c.1 ≤ lastAddress ∧ c.2 ≠ unlistedByte c.1

/-- The address checker on a block of n bytes from base b (R53, R54): checked as a whole, never reduced. -/
def blockAccepted (b n : Nat) : Bool := n == 0 || b + n - 1 ≤ lastAddress

/-- The lowest rejected address of a rejected block from b (R53). -/
def lowestRejected (b : Nat) : Nat := max b 0x1000

/-! ## Registers (R21, R24) -/

/-- V[x]. -/
def State.readV (s : State) (x : Reg) : Byte := s.V[x]

/-- V[x] <- b. -/
def State.writeV (s : State) (x : Reg) (b : Byte) : State := { s with V := s.V.set x b }

/-- VF <- the bit (R22). -/
def State.writeFlag (s : State) (b : Bool) : State := s.writeV flagReg (if b then 0x01#8 else 0x00#8)

/-- I <- w. -/
def State.writeI (s : State) (w : Word) : State := { s with I := w }

/-- mem <- m. -/
def State.writeMem (s : State) (m : Memory) : State := { s with mem := m }

/-- DT <- b. -/
def State.writeDT (s : State) (b : Byte) : State := { s with DT := b }

/-- ST <- b. -/
def State.writeST (s : State) (b : Byte) : State := { s with ST := b }

/-- fb <- the picture, redraw <- 1: what CLS and DRW do to the display (R32). -/
def State.showFb (s : State) (picture : Framebuffer) : State := { s with fb := picture, redraw := true }

/-- pc <- w. -/
def State.jumpTo (s : State) (w : Word) : State := { s with pc := w }

/-- pc <- pc + 2, the next instruction (R24); from a pc no run reaches the sum wraps (log entry 8). -/
def State.advance (s : State) : State := s.jumpTo (s.pc + 2#16)

/-- pc <- pc + 4 for a taken skip, pc + 2 otherwise (R24, R150–R155). -/
def State.skipIf (s : State) (taken : Bool) : State := if taken then s.jumpTo (s.pc + 4#16) else s.advance

/-- The registers V0..Vx in ascending order. -/
def regsUpTo (x : Reg) : List Reg := (List.finRange 16).filter fun r => decide (r ≤ x)

/-- V[r] <- memory[base + r] for each listed register, in order (R205). -/
def State.loadRegs (s : State) (base : Nat) (rs : List Reg) : State :=
  rs.foldl (fun t r => t.writeV r (readByte t.mem (base + r.val))) s

/-! ## The call stack (R28) -/

/-- Push the address of the current instruction, where the stack is not full. -/
def State.push (s : State) (h : s.sp.val < 16) : State :=
  { s with stack := s.stack.set s.sp.val s.pc, sp := ⟨s.sp.val + 1, by omega⟩ }

/-- The top entry of a stack that is not empty. -/
def State.top (s : State) (h : 0 < s.sp.val) : Word := s.stack[s.sp.val - 1]'(by omega)

/-- Drop the top entry; it keeps its value (R29). -/
def State.pop (s : State) : State := { s with sp := ⟨s.sp.val - 1, by omega⟩ }

/-! ## The framebuffer (R31) -/

/-- fb[y][x]; no pixel is off the grid, and reading there gives off (log entry 8). -/
def pixelAt (fb : Framebuffer) (y x : Nat) : Bool := if h : y < 32 ∧ x < 64 then fb[y][x] else false

/-- fb[y][x] <- fb[y][x] xor 1; nothing off the grid. -/
def flipPixel (fb : Framebuffer) (y x : Nat) : Framebuffer :=
  if h : y < 32 ∧ x < 64 then fb.set y (fb[y].set x (!fb[y][x])) else fb

/-- Every pixel off. -/
def clearedFb : Framebuffer := Vector.replicate 32 (Vector.replicate 64 false)

/-- The set bits (row, column) of a sprite, rows ascending and then columns, column c being bit 7 − c (R111). -/
def spriteBits (columns : Nat) (rows : List Byte) : List (Nat × Nat) :=
  rows.zipIdx.flatMap fun (row, r) =>
    ((List.range columns).filter fun c => row.getLsbD (7 - c)).map fun c => (r, c)

/-- The pixel (y, x) lies on the 64×32 grid. -/
def onGrid (q : Nat × Nat) : Bool := decide (q.1 < fbHeight) && decide (q.2 < fbWidth)

/-- XOR the pixels (y, x) into the framebuffer in order; the flag says whether some pixel was on before it (R111). -/
def drawPixels (fb : Framebuffer) (qs : List (Nat × Nat)) : Framebuffer × Bool :=
  qs.foldl (fun acc q => (flipPixel acc.1 q.1 q.2, acc.2 || pixelAt acc.1 q.1 q.2)) (fb, false)

/-! ## The key lines (R33) -/

/-- The lowest-indexed pressed key (R221). -/
def lowestPressed (key : Vector Bool 16) : Option Reg := (List.finRange 16).find? fun k => key[k]

/-! ## The random source (R263) -/

/-- `draw RNG`: the next byte of the random source, and the state that has drawn it. The byte is a free value. -/
def State.drawByte (s : State) : Byte × State := (Config.rngByte s.draws, { s with draws := s.draws + 1 })

/-! ## Faults (R240, R242) -/

/-- The cause codes (R242). -/
def Fault.code : Fault → Byte
  | .fetchOutOfRange => 0x01#8
  | .decodeFault => 0x02#8
  | .stackOverflow => 0x03#8
  | .stackUnderflow => 0x04#8
  | .memoryOutOfRange => 0x05#8
  | .keyIndexOutOfRange => 0x06#8
  | .screenOutOfRange => 0x07#8

/-- Taking a fault (R240, R253): the latch is set, and nothing else changes. pc is the faulting instruction's own. -/
def State.takeFault (s : State) (c : Fault) (opcode info0 info1 : Word) : State :=
  { s with fault := some { cause := c.code, pc := s.pc, opcode := opcode, info0 := info0, info1 := info1 } }

/-- `raise Fault(cause, info0, info1)` by an instruction: the step ends in the state with the latch set. The opcode of
the record is the instruction's word, which is the fetched word (log entry 3). -/
def raiseFault (i : Instr) (c : Fault) (info0 info1 : Word) (s : State) : Result :=
  .next (s.takeFault c (encode i) info0 info1)

/-- MEMORY_OUT_OF_RANGE for the block from I (R53). -/
def raiseMemory (i : Instr) (s : State) : Result :=
  raiseFault i .memoryOutOfRange (BitVec.ofNat 16 (lowestRejected s.I.toNat)) 0#16 s

/-! ## The cycle of a STEP (R83–R85, R241) -/

/-- The fetch at pc: the big-endian word of the bytes at pc and pc + 1, or info0 of FETCH_OUT_OF_RANGE (R83). -/
def fetch (s : State) : Except Word Word :=
  if s.pc.toNat ≤ 0xFFE then
    .ok (wordOfBytes (readByte s.mem s.pc.toNat) (readByte s.mem (s.pc.toNat + 1)))
  else
    .error (if s.pc.toNat > lastAddress then s.pc else s.pc + 1#16)

/-- One STEP around the meaning of an instruction (R84): a set latch stops everything (R241), then fetch, decode,
execute. -/
def cycle (run : Instr → State → Result) (s : State) : Result :=
  match s.fault with
  | some _ => .next s
  | none =>
    match fetch s with
    | .error info0 => .next (s.takeFault .fetchOutOfRange 0x0000#16 info0 0#16)
    | .ok op =>
      match decodeWord op with
      | none => .next (s.takeFault .decodeFault op 0#16 0#16)
      | some i => run i s

/-! ## The timer tick (R260, R261) -/

/-- Down by one, floored at 0 (R260). -/
def countDown (t : Byte) : Byte := if t = 0x00#8 then t else t - 1#8

/-- TICK: both timers count down; the tone bit is set when ST was 1 (R260, R261). -/
def State.tick (s : State) : State × Bool :=
  ({ s with DT := countDown s.DT, ST := countDown s.ST }, decide (s.ST = 0x01#8))

/-! ## Placing an instruction where the next STEP fetches it -/

/-- The big-endian word op at address a. -/
def storeWord (m : Memory) (a : Nat) (op : Word) : Memory := writeByte (writeByte m a (highByte op)) (a + 1) (lowByte op)

/-- s with the word op at pc, ready to fetch it: the latch is clear, since a set latch stops every STEP, and a pc from
which no fetch is possible is set to the entry point. In any other state only memory changes. -/
def State.placeWord (s : State) (op : Word) : State :=
  let a : Word := if s.pc.toNat ≤ 0xFFE then s.pc else 0x0200#16
  { s with mem := storeWord s.mem a.toNat op, pc := a, fault := none }

end Sys2Proof.Machine
end

