-- ==== Sys2Proof/Machine/Operands.lean ====
section
/-! DEFINITION. The operand forms of the ISA (R82, R206): immediates, the I-relative block, the glyph address, the
decimal digits, and the key number in a register. -/

namespace Sys2Proof.Machine

/-- zext_16(NNN) (R82). -/
def addressOf (nnn : Addr) : Word := nnn.setWidth 16

/-- A register's value as a 16-bit unsigned number (R82). -/
def State.wideV (s : State) (x : Reg) : Word := (s.readV x).setWidth 16

/-- The base of the I-relative block, an unbounded number (R52). -/
def State.base (s : State) : Nat := s.I.toNat

/-- V[x] × 5: the address of a glyph, not masked (R202). At most 1275, so it fits 16 bits. -/
def glyphAddress (v : Byte) : Word := BitVec.ofNat 16 (v.toNat * 5)

/-- The decimal digits of a byte: hundreds, tens, ones (R203). -/
def decimalDigits (v : Byte) : List Byte :=
  [BitVec.ofNat 8 (v.toNat / 100), BitVec.ofNat 8 (v.toNat / 10 % 10), BitVec.ofNat 8 (v.toNat % 10)]

/-- I <- I + x + 1 after a block of x + 1 registers (R204, R205). -/
def State.bumpI (s : State) (x : Reg) : State := s.writeI (s.I + BitVec.ofNat 16 (x.val + 1))

/-- The key line that V[x] numbers, where it numbers one (R154). -/
def State.keyLine? (s : State) (x : Reg) : Option Bool :=
  if h : (s.readV x).toNat < 16 then some s.key[(s.readV x).toNat] else none

end Sys2Proof.Machine
end

