-- ==== Sys2Proof/Machine/Flags.lean ====
section
/-! DEFINITION. Every flag computation of the ISA (R22, R173–R182): carry, not-borrow, the bit shifted out, the
cleared flag; and the two orders in which VF and the result are written (R9). -/

namespace Sys2Proof.Machine

/-- Carry out of the unbounded sum (R176, R182). -/
def carryOut (a b : Byte) : Bool := decide (a.toNat + b.toNat > 255)

/-- a − b does not borrow; the equal case does not (R177, R182). -/
def notBorrow (a b : Byte) : Bool := !decide (b.toNat > a.toNat)

/-- Bit 0, shifted out to the right (R178). -/
def bitOutRight (a : Byte) : Bool := a.getLsbD 0

/-- Bit 7, shifted out to the left (R180). -/
def bitOutLeft (a : Byte) : Bool := a.getLsbD 7

/-- An ALU operation with a flag (R176–R180): VF and V[x] get `flag` and `value` of V[x] and V[y].
Sequential: VF is written first and the result is computed from the registers as they then stand.
Latched: both are computed from the old registers, and VF is written last. -/
def aluWithFlag (order : VfOperandOrder) (flag : Byte → Byte → Bool) (value : Byte → Byte → Byte) (x y : Reg)
    (s : State) : State :=
  match order with
  | .sequential =>
    let t := s.writeFlag (flag (s.readV x) (s.readV y))
    t.writeV x (value (t.readV x) (t.readV y))
  | .latched =>
    (s.writeV x (value (s.readV x) (s.readV y))).writeFlag (flag (s.readV x) (s.readV y))

/-- A logical operation (R173–R175): V[x] gets the value, then VF is cleared. -/
def aluClearFlag (value : Byte → Byte → Byte) (x y : Reg) (s : State) : State :=
  (s.writeV x (value (s.readV x) (s.readV y))).writeFlag false

end Sys2Proof.Machine
end

