-- ==== Sys2Proof/Machine/Alu.lean ====
section
/-! DEFINITION. Register loads and ALU (43_alu.md). The `…With` forms take VF_OPERAND_ORDER; the exec forms are the
CORE's. -/

namespace Sys2Proof.Machine

/-- LD Vx, nn (R170). -/
def execLdImm (x : Reg) (nn : Byte) (s : State) : Result := .next (s.writeV x nn).advance

/-- ADD Vx, nn (R171): mod 256, no carry. -/
def execAddImm (x : Reg) (nn : Byte) (s : State) : Result := .next (s.writeV x (s.readV x + nn)).advance

/-- LD Vx, Vy (R172). -/
def execLdReg (x y : Reg) (s : State) : Result := .next (s.writeV x (s.readV y)).advance

/-- OR (R173). -/
def execOr (x y : Reg) (s : State) : Result := .next (aluClearFlag (fun a b => a ||| b) x y s).advance

/-- AND (R174). -/
def execAnd (x y : Reg) (s : State) : Result := .next (aluClearFlag (fun a b => a &&& b) x y s).advance

/-- XOR (R175). -/
def execXor (x y : Reg) (s : State) : Result := .next (aluClearFlag (fun a b => a ^^^ b) x y s).advance

/-- ADD Vx, Vy (R176) in a given order. -/
def addRegWith (o : VfOperandOrder) (x y : Reg) (s : State) : Result :=
  .next (aluWithFlag o carryOut (fun a b => a + b) x y s).advance

/-- ADD Vx, Vy (R176). -/
def execAddReg (x y : Reg) (s : State) : Result := addRegWith coreParams.vfOperandOrder x y s

/-- SUB (R177) in a given order. -/
def subWith (o : VfOperandOrder) (x y : Reg) (s : State) : Result :=
  .next (aluWithFlag o notBorrow (fun a b => a - b) x y s).advance

/-- SUB (R177). -/
def execSub (x y : Reg) (s : State) : Result := subWith coreParams.vfOperandOrder x y s

/-- SHR (R178) in a given order: VX is shifted, VY is not read. -/
def shrWith (o : VfOperandOrder) (x : Reg) (s : State) : Result :=
  .next (aluWithFlag o (fun a _ => bitOutRight a) (fun a _ => a >>> 1) x x s).advance

/-- SHR (R178); the Y field of the word is ignored (R88). -/
def execShr (x _y : Reg) (s : State) : Result := shrWith coreParams.vfOperandOrder x s

/-- SUBN (R179) in a given order. -/
def subnWith (o : VfOperandOrder) (x y : Reg) (s : State) : Result :=
  .next (aluWithFlag o (fun a b => notBorrow b a) (fun a b => b - a) x y s).advance

/-- SUBN (R179). -/
def execSubn (x y : Reg) (s : State) : Result := subnWith coreParams.vfOperandOrder x y s

/-- SHL (R180) in a given order: VX is shifted, VY is not read. -/
def shlWith (o : VfOperandOrder) (x : Reg) (s : State) : Result :=
  .next (aluWithFlag o (fun a _ => bitOutLeft a) (fun a _ => a <<< 1) x x s).advance

/-- SHL (R180); the Y field of the word is ignored (R88). -/
def execShl (x _y : Reg) (s : State) : Result := shlWith coreParams.vfOperandOrder x s

/-- RND (R181): a fresh draw of the random source, a free value, masked. -/
def execRnd (x : Reg) (nn : Byte) (s : State) : Result :=
  .next (s.drawByte.2.writeV x (s.drawByte.1 &&& nn)).advance

end Sys2Proof.Machine
end

