-- ==== Sys2Proof/Machine/Control.lean ====
section
/-! DEFINITION. Control transfer (41_control_transfer.md). -/

namespace Sys2Proof.Machine

/-- RET (R130): the popped address is that of the CALL, so 2 is added. -/
def execRet (s : State) : Result :=
  if h : 0 < s.sp.val then .next (s.pop.jumpTo (s.top h + 2#16))
  else raiseFault .ret .stackUnderflow 0#16 0#16 s

/-- JP (R131). -/
def execJp (nnn : Addr) (s : State) : Result := .next (s.jumpTo (addressOf nnn))

/-- CALL (R132): pushes the address of the CALL itself. -/
def execCall (nnn : Addr) (s : State) : Result :=
  if h : s.sp.val < 16 then .next ((s.push h).jumpTo (addressOf nnn))
  else raiseFault (.call nnn) .stackOverflow (addressOf nnn) 16#16 s

/-- JP V0 (R133): the offset is always V0. -/
def execJpV0 (nnn : Addr) (s : State) : Result := .next (s.jumpTo (addressOf nnn + s.wideV 0))

end Sys2Proof.Machine
end

