-- ==== Sys2Proof/Machine/Display.lean ====
section
/-! DEFINITION. The display instructions (40_display.md). -/

namespace Sys2Proof.Machine

/-- CLS (R110). -/
def execCls (s : State) : Result := .next (s.showFb clearedFb).advance

/-- DRW under any parameter values (R111, R248, R250): memory is checked before the screen; VF is written last. -/
def drwWith (p : Params) (x y : Reg) (n : Nat) (s : State) : Result :=
  if blockAccepted s.base n then
    let bits := spriteBits (rowColumns p.spriteRowWidth) (readBlock s.mem s.base n)
    let pixels := bits.map fun rc => ((s.readV y).toNat + rc.1, (s.readV x).toNat + rc.2)
    match p.offscreenPolicy, pixels.find? (fun q => !onGrid q) with
    | .fault, some q => raiseFault (.drw x y n) .screenOutOfRange (BitVec.ofNat 16 q.2) (BitVec.ofNat 16 q.1) s
    | _, _ =>
      let drawn := drawPixels s.fb (pixels.filter onGrid)
      .next ((s.showFb drawn.1).writeFlag drawn.2).advance
  else raiseMemory (.drw x y n) s

/-- DRW of the CORE (R111). -/
def execDrw (x y : Reg) (n : Nat) (s : State) : Result := drwWith coreParams x y n s

end Sys2Proof.Machine
end

