-- ==== Sys2Proof/Machine/Index.lean ====
section
/-! DEFINITION. Index register and memory (44_index_memory.md). -/

namespace Sys2Proof.Machine

/-- LD I, nnn (R200). -/
def execLdI (nnn : Addr) (s : State) : Result := .next (s.writeI (addressOf nnn)).advance

/-- ADD I, Vx (R201): mod 2^16, no flag. -/
def execAddIVx (x : Reg) (s : State) : Result := .next (s.writeI (s.I + s.wideV x)).advance

/-- LD F, Vx (R202). -/
def execLdFVx (x : Reg) (s : State) : Result := .next (s.writeI (glyphAddress (s.readV x))).advance

/-- LD B, Vx (R203). -/
def execLdBVx (x : Reg) (s : State) : Result :=
  if blockAccepted s.base 3 then
    .next (s.writeMem (writeBlock s.mem s.base (decimalDigits (s.readV x)))).advance
  else raiseMemory (.ldBVx x) s

/-- LD [I], Vx (R204). -/
def execLdMemVx (x : Reg) (s : State) : Result :=
  if blockAccepted s.base (x.val + 1) then
    .next ((s.writeMem (writeBlock s.mem s.base ((regsUpTo x).map s.readV))).bumpI x).advance
  else raiseMemory (.ldMemVx x) s

/-- LD Vx, [I] (R205). -/
def execLdVxMem (x : Reg) (s : State) : Result :=
  if blockAccepted s.base (x.val + 1) then .next ((s.loadRegs s.base (regsUpTo x)).bumpI x).advance
  else raiseMemory (.ldVxMem x) s

end Sys2Proof.Machine
end

