-- ==== Sys2Proof/Machine/Skip.lean ====
section
/-! DEFINITION. Conditional skips (42_skips.md). -/

namespace Sys2Proof.Machine

/-- SE Vx, nn (R150). -/
def execSeImm (x : Reg) (nn : Byte) (s : State) : Result := .next (s.skipIf (s.readV x == nn))

/-- SNE Vx, nn (R151). -/
def execSneImm (x : Reg) (nn : Byte) (s : State) : Result := .next (s.skipIf (s.readV x != nn))

/-- SE Vx, Vy (R152). -/
def execSeReg (x y : Reg) (s : State) : Result := .next (s.skipIf (s.readV x == s.readV y))

/-- SNE Vx, Vy (R153). -/
def execSneReg (x y : Reg) (s : State) : Result := .next (s.skipIf (s.readV x != s.readV y))

/-- KEY_INDEX_OUT_OF_RANGE with the key number (R247). -/
def raiseKey (i : Instr) (x : Reg) (s : State) : Result := raiseFault i .keyIndexOutOfRange (s.wideV x) 0#16 s

/-- SKP (R154). -/
def execSkp (x : Reg) (s : State) : Result :=
  match s.keyLine? x with
  | some pressed => .next (s.skipIf pressed)
  | none => raiseKey (.skp x) x s

/-- SKNP (R155). -/
def execSknp (x : Reg) (s : State) : Result :=
  match s.keyLine? x with
  | some pressed => .next (s.skipIf (!pressed))
  | none => raiseKey (.sknp x) x s

end Sys2Proof.Machine
end

