-- ==== Sys2Proof/Machine/Timer.lean ====
section
/-! DEFINITION. Timers and key wait (45_timers_keywait.md). -/

namespace Sys2Proof.Machine

/-- LD Vx, DT (R220). -/
def execLdVxDt (x : Reg) (s : State) : Result := .next (s.writeV x s.DT).advance

/-- LD Vx, K (R221): with no key pressed nothing changes, pc included, so the next STEP polls again. -/
def execLdVxK (x : Reg) (s : State) : Result :=
  match lowestPressed s.key with
  | some k => .next (s.writeV x (BitVec.ofNat 8 k.val)).advance
  | none => .next s

/-- LD DT, Vx (R222). -/
def execLdDtVx (x : Reg) (s : State) : Result := .next (s.writeDT (s.readV x)).advance

/-- LD ST, Vx (R223): the write gives no tone. -/
def execLdStVx (x : Reg) (s : State) : Result := .next (s.writeST (s.readV x)).advance

end Sys2Proof.Machine
end

