-- ==== Sys2Proof/Machine/Step.lean ====
section
/-! DEFINITION. STEP of the CORE (R84): its timers are decoupled, so nothing follows the instruction (R262). The
host's other operations are in HostOps.lean (log entry 6). -/

namespace Sys2Proof.Machine

def step (s : State) : Host.Outcome State Fault Refusal := cycle exec s

/-- s with the table word w of nbits bits stored where the next STEP fetches (log entry 4). -/
def State.withFetchWord (s : State) (nbits w : Nat) : State := s.placeWord (BitVec.ofNat 16 (w % 2 ^ nbits))

end Sys2Proof.Machine
end

