-- ==== Sys2Proof/Machine/Variants.lean ====
section
/-! DEFINITION. The CORE under any values of the parameters of R6, as R9, R111, R176–R180, R262 and D11–D19 give them.
Under `coreParams` it is the machine of Dispatch.lean and Step.lean (log entry 7). -/

namespace Sys2Proof.Machine

/-- exec under given parameter values: only DRW and the ALU operations with a flag depend on them. -/
def execWith (p : Params) (i : Instr) (s : State) : Result :=
  match i with
  | .drw x y n => drwWith p x y n s
  | .addReg x y => addRegWith p.vfOperandOrder x y s
  | .sub x y => subWith p.vfOperandOrder x y s
  | .shr x _ => shrWith p.vfOperandOrder x s
  | .subn x y => subnWith p.vfOperandOrder x y s
  | .shl x _ => shlWith p.vfOperandOrder x s
  | other => exec other s

/-- What TIMER_COUPLING adds at the end of a STEP that ran from a clear latch (R84, R262, D17): nothing when decoupled;
one TICK, whose tone bit is returned, when coupled, on a faulting STEP only if PER_STEP_TICK_ON_FAULT. -/
def endOfStep (c : TimerCoupling) (s : State) : State × Option Bool :=
  match c with
  | .decoupled => (s, none)
  | .perStep tickOnFault =>
    if s.fault.isNone || tickOnFault then (s.tick.1, some s.tick.2) else (s, none)

/-- STEP under given parameter values, with the tone bit it returns if any. A STEP that finds the latch set changes
nothing (R241). -/
def stepWith (p : Params) (s : State) : Host.Outcome (State × Option Bool) Fault Refusal :=
  if s.fault.isSome then .next (s, none)
  else
    match cycle (execWith p) s with
    | .next t => .next (endOfStep p.timerCoupling t)
    | .fault r => .fault r
    | .refused r => .refused r

/-- The state after INIT with the font FONT (R27, R290). -/
def State.resetWith (p : Params) : State := { State.reset with mem := writeBlock [] 0 p.font.toList }

end Sys2Proof.Machine
end

