-- ==== Sys2Proof/Machine/HostOps.lean ====
section
/-! DEFINITION. The host interface (R270): the nine operations, each atomic (R271), with their results. -/

namespace Sys2Proof.Machine

/-- The operations of R270. -/
inductive HostOp where
  | init
  | load (image : List Byte)
  | step
  | tick
  | readFb
  | readRedraw
  | clearRedraw
  /-- bit k is key line k (R265) -/
  | writeKeys (lines : Word)
  | readFault
  deriving DecidableEq, Repr

/-- What an operation gives back to the host (R270). -/
inductive HostResult where
  | none
  | loadOk
  /-- LOAD_TOO_LARGE, code 0x08; not latched (R242, R249). -/
  | loadTooLarge
  /-- STEP ended with the latch clear. The tone bit is there only under TIMER_COUPLING = per_step (R262). -/
  | stepOk (tone : Option Bool)
  /-- STEP ended with the latch set: the record (R240, R241). -/
  | stepFault (r : FaultRecord) (tone : Option Bool)
  | tone (t : Bool)
  | pixels (fb : Framebuffer)
  | redrawBit (b : Bool)
  | latch (r : Option FaultRecord)
  deriving DecidableEq, Repr

/-- INIT (R290): every piece of the CORE's state to its reset value. The draw index is the model's own and goes on, so
that no draw is repeated (log entry 1). -/
def State.init (p : Params) (s : State) : State := { State.resetWith p with draws := s.draws }

/-- LOAD (R291): all of the image at 0x200 upward, or nothing. -/
def State.load (s : State) (image : List Byte) : State × HostResult :=
  if image.length > progMax then (s, .loadTooLarge)
  else ({ s with mem := writeBlock s.mem progBase image }, .loadOk)

/-- The code of LOAD's rejection (R242). -/
def loadTooLargeCode : Byte := 0x08#8

/-- CLEAR_REDRAW (R266). -/
def State.clearRedraw (s : State) : State := { s with redraw := false }

/-- WRITE_KEYS (R265, R270): key[k] <- bit k. -/
def State.writeKeys (s : State) (lines : Word) : State :=
  { s with key := Vector.ofFn fun k : Fin 16 => lines.getLsbD k.val }

/-- The result of a STEP that left the state t. -/
def stepResult (t : State) (tone : Option Bool) : HostResult :=
  match t.fault with
  | none => .stepOk tone
  | some r => .stepFault r tone

/-- One host operation under given parameter values. -/
def hostApply (p : Params) (op : HostOp) (s : State) : Host.Outcome (State × HostResult) Fault Refusal :=
  match op with
  | .init => .next (s.init p, .none)
  | .load image => .next (s.load image)
  | .step =>
    match stepWith p s with
    | .next (t, tone) => .next (t, stepResult t tone)
    | .fault r => .fault r
    | .refused r => .refused r
  | .tick => .next (s.tick.1, .tone s.tick.2)
  | .readFb => .next (s, .pixels s.fb)
  | .readRedraw => .next (s, .redrawBit s.redraw)
  | .clearRedraw => .next (s.clearRedraw, .none)
  | .writeKeys lines => .next (s.writeKeys lines, .none)
  | .readFault => .next (s, .latch s.fault)

/-- The operations of the host one after another (R271), stopping at a stop. -/
def hostRun (p : Params) : List HostOp → State → Host.Outcome State Fault Refusal
  | [], s => .next s
  | op :: ops, s =>
    match hostApply p op s with
    | .next (t, _) => hostRun p ops t
    | .fault r => .fault r
    | .refused r => .refused r

end Sys2Proof.Machine
end

