-- ==== Sys2Proof/Safety.lean ====
section
/-! DEFINITION. The terms the claims are stated in: the invariant of the CORE, what a step keeps, how an instruction is
encoded, and the faults and sprites as the spec's rules give them, written apart from the meanings. -/

namespace Sys2Proof.Machine

/-! ## The invariant -/

/-- What holds of the CORE after INIT and is kept by every host operation: memory is in canonical form; pc is at most
0x10FE (R25); every stack entry is the address of an instruction (R28, R132); and a latched record names the current pc
and one of the seven causes (R240, R242). -/
structure State.Inv (s : State) : Prop where
  memory : Memory.wf s.mem
  pcBound : s.pc.toNat ≤ 0x10FE
  stackBound : ∀ k : Fin 16, s.stack[k].toNat ≤ 0xFFE
  latch : ∀ r, s.fault = some r → r.pc = s.pc ∧ 1 ≤ r.cause.toNat ∧ r.cause.toNat ≤ 7

/-! ## Frames -/

/-- The pieces of state other than the general registers and pc. -/
inductive Part where
  | I
  | sp
  | stack
  | DT
  | ST
  | mem
  | fb
  | redraw
  | key
  | fault
  | draws
  deriving DecidableEq, Repr

/-- A piece of state is as it was; memory is, by every read of a byte. -/
def Part.Kept (s t : State) : Part → Prop
  | .I => t.I = s.I
  | .sp => t.sp = s.sp
  | .stack => t.stack = s.stack
  | .DT => t.DT = s.DT
  | .ST => t.ST = s.ST
  | .mem => ∀ a, readByte t.mem a = readByte s.mem a
  | .fb => t.fb = s.fb
  | .redraw => t.redraw = s.redraw
  | .key => t.key = s.key
  | .fault => t.fault = s.fault
  | .draws => t.draws = s.draws

/-- From s to t nothing changed but the listed registers, the listed parts, and pc. -/
def Frame (regs : List Reg) (parts : List Part) (s t : State) : Prop :=
  (∀ r, r ∉ regs → t.readV r = s.readV r) ∧ ∀ p, p ∉ parts → p.Kept s t

/-! ## Encodings -/

/-- The word w is the encoding of i, and decodes to i. -/
def EncodedAs (i : Instr) (w : Nat) : Prop := encode i = BitVec.ofNat 16 w ∧ decodeWord (BitVec.ofNat 16 w) = some i

/-! ## Faults -/

/-- s with the latch set to the record of its own pc (R36, R240): nothing else changes. -/
def State.latched (s : State) (cause opcode info0 info1 : Nat) : State :=
  { s with
    fault := some
      { cause := BitVec.ofNat 8 cause, pc := s.pc, opcode := BitVec.ofNat 16 opcode, info0 := BitVec.ofNat 16 info0,
        info1 := BitVec.ofNat 16 info1 } }

/-- The word at pc, big-endian (R57). -/
def State.wordAtPc (s : State) : Nat :=
  (readByte s.mem s.pc.toNat).toNat * 256 + (readByte s.mem (s.pc.toNat + 1)).toNat

/-- A STEP from s runs the instruction i: the latch is clear, the fetch is possible, and the word decodes to i (R84). -/
def State.Runs (s : State) (i : Instr) : Prop :=
  s.fault = none ∧ s.pc.toNat ≤ 0xFFE ∧ decodeWord (BitVec.ofNat 16 s.wordAtPc) = some i

/-! ## Blocks (R51, R53) -/

/-- How many bytes from I an instruction accesses, for the four that do (R51). -/
def blockLength : Instr → Option Nat
  | .drw _ _ n => some n
  | .ldBVx _ => some 3
  | .ldMemVx x => some (x.val + 1)
  | .ldVxMem x => some (x.val + 1)
  | _ => none

/-! ## Sprites (R111) -/

/-- Bit (r, c) of the sprite of n rows at I is set: r < n, c < columns, row[r][7 − c] = 1. -/
def State.spriteBit (s : State) (columns n r c : Nat) : Bool :=
  decide (r < n) && decide (c < columns) && (readByte s.mem (s.I.toNat + r)).getLsbD (7 - c)

/-- The sprite drawn at column V[x] and row V[y] has a set bit on pixel (row, col). -/
def State.spriteCovers (s : State) (columns : Nat) (x y : Reg) (n row col : Nat) : Bool :=
  decide ((s.readV y).toNat ≤ row) && decide ((s.readV x).toNat ≤ col) &&
    s.spriteBit columns n (row - (s.readV y).toNat) (col - (s.readV x).toNat)

/-- Bit (r, c) of the sprite drawn at V[x], V[y] is set and lands outside the 64×32 grid. -/
def State.offGridBit (s : State) (columns : Nat) (x y : Reg) (n r c : Nat) : Bool :=
  s.spriteBit columns n r c && !(decide ((s.readV x).toNat + c ≤ 63) && decide ((s.readV y).toNat + r ≤ 31))

/-! ## Which fault a STEP raises (R242, R250), cause, info0, info1 -/

/-- The block check of n bytes from I (R53, R54). -/
def expectedMemoryFault (s : State) (n : Nat) : Option (Nat × Nat × Nat) :=
  if n ≠ 0 ∧ s.I.toNat + n - 1 > 0xFFF then some (5, max s.I.toNat 0x1000, 0) else none

/-- The first set bit off the grid, r ascending and then c ascending (R111). -/
def firstOffGrid (s : State) (x y : Reg) (n : Nat) : Option (Nat × Nat) :=
  ((List.range n).flatMap fun r => (List.range 8).map fun c => (r, c)).find? fun rc => s.offGridBit 8 x y n rc.1 rc.2

/-- The checks of each instruction, in the order its rule lists them, under the CORE's parameter values. -/
def expectedInstrFault (s : State) : Instr → Option (Nat × Nat × Nat)
  | .ret => if s.sp.val = 0 then some (4, 0, 0) else none
  | .call nnn => if s.sp.val = 16 then some (3, nnn.toNat, 16) else none
  | .drw x y n =>
    match expectedMemoryFault s n, firstOffGrid s x y n with
    | some f, _ => some f
    | none, some (r, c) => some (7, (s.readV x).toNat + c, (s.readV y).toNat + r)
    | none, none => none
  | .skp x => if (s.readV x).toNat > 15 then some (6, (s.readV x).toNat, 0) else none
  | .sknp x => if (s.readV x).toNat > 15 then some (6, (s.readV x).toNat, 0) else none
  | .ldBVx _ => expectedMemoryFault s 3
  | .ldMemVx x => expectedMemoryFault s (x.val + 1)
  | .ldVxMem x => expectedMemoryFault s (x.val + 1)
  | _ => none

/-- The state after a STEP of the CORE that faults, if it does: fetch, then decode, then the instruction's checks. -/
def expectedFaultState (s : State) : Option State :=
  if s.pc.toNat > 0xFFE then some (s.latched 1 0x0000 (if s.pc.toNat > 0xFFF then s.pc.toNat else 0x1000) 0)
  else
    match decodeWord (BitVec.ofNat 16 s.wordAtPc) with
    | none => some (s.latched 2 s.wordAtPc 0 0)
    | some i => (expectedInstrFault s i).map fun f => s.latched f.1 s.wordAtPc f.2.1 f.2.2

/-! ## After INIT (R290) -/

/-- Every piece of the CORE's state has the reset value of R20, with the font of p. -/
structure State.IsReset (p : Params) (t : State) : Prop where
  V : ∀ r, t.readV r = 0x00#8
  I : t.I = 0x0000#16
  pc : t.pc = 0x0200#16
  sp : t.sp.val = 0
  stack : ∀ k : Fin 16, t.stack[k] = 0x0000#16
  DT : t.DT = 0x00#8
  ST : t.ST = 0x00#8
  font : ∀ a : Fin 80, readByte t.mem a.val = p.font[a]
  zero : ∀ a, 80 ≤ a → readByte t.mem a = 0x00#8
  fb : ∀ y x, pixelAt t.fb y x = false
  redraw : t.redraw = true
  key : ∀ k : Reg, t.key[k] = false
  fault : t.fault = none

/-! ## The stack entries in use (R28, R29) -/

/-- The two states differ at most in stack entries at sp and above. -/
def State.SameLive (s s' : State) : Prop :=
  ∃ st : Vector Word 16, s' = { s with stack := st } ∧ ∀ k : Fin 16, k.val < s.sp.val → st[k] = s.stack[k]

/-! ## Who writes what (the "written by" column of R20, and R21) -/

/-- The registers an instruction may write (R21). -/
def writesReg : Instr → Reg → Bool
  | .ldImm x _, r | .addImm x _, r | .ldReg x _, r | .rnd x _, r | .ldVxDt x, r | .ldVxK x, r => r == x
  | .orReg x _, r | .andReg x _, r | .xorReg x _, r | .addReg x _, r | .sub x _, r | .shr x _, r | .subn x _, r
  | .shl x _, r => r == x || r == 15
  | .drw _ _ _, r => r == 15
  | .ldVxMem x, r => decide (r ≤ x)
  | _, _ => false

/-- The other pieces of state an instruction may write when it does not fault (R20). -/
def writesPart : Instr → Part → Bool
  | .ldI _, .I | .addIVx _, .I | .ldFVx _, .I | .ldMemVx _, .I | .ldVxMem _, .I => true
  | .call _, .sp | .ret, .sp => true
  | .call _, .stack => true
  | .ldDtVx _, .DT => true
  | .ldStVx _, .ST => true
  | .ldBVx _, .mem | .ldMemVx _, .mem => true
  | .cls, .fb | .drw _ _ _, .fb => true
  | .cls, .redraw | .drw _ _ _, .redraw => true
  | .rnd _ _, .draws => true
  | _, _ => false

end Sys2Proof.Machine
end

