-- ==== Sys2Proof/Certificates/Slice0/Obligations.lean ====
section
/-! DEFINITION. The statements for the provers. Where a rule the statement rests on is marked [decision] or [derived] in
the spec, the docstring says so. -/

open Sys2Proof Sys2Proof.Machine

/-! ## Encoding and decoding (30_encoding.md) -/

/-- Every well-formed instruction is read back from its two stored bytes, whatever bytes follow: no operand bit is lost
(30_encoding.md sections 1 and 3). -/
def Obligations.DecodeOfEncodeIsIdentity : Prop :=
  ∀ (i : Instr) (rest : List Byte), i.wellFormed = true → decode (encodeBytes i ++ rest) = .ok (i, rest)

/-- Every word that decodes is the encoding of the instruction it decodes to, so two words never decode to one term
(the term keeps the Y field that SHR and SHL ignore, R88). -/
def Obligations.EncodeOfDecodeIsIdentity : Prop :=
  ∀ (op : Word) (i : Instr), decodeWord op = some i → i.wellFormed = true ∧ encode i = op

/-- R85: the decoder selects the unique row with (op & mask) = match; a word with no row raises DECODE_FAULT. -/
def Obligations.DecoderSelectsTheUniqueRow : Prop :=
  ∀ op : Word,
    (∀ i, decodeWord op = some i →
      i.row ∈ opcodeTable ∧ op &&& i.row.mask = i.row.pattern ∧
        ∀ r ∈ opcodeTable, op &&& r.mask = r.pattern → r = i.row) ∧
    (decodeWord op = none →
      (∀ r ∈ opcodeTable, op &&& r.mask ≠ r.pattern) ∧
        ∀ s : State, s.fault = none → s.pc.toNat ≤ 0xFFE → s.wordAtPc = op.toNat →
          step s = .next (s.latched 2 op.toNat 0 0))

/-- One word of each family, written out from R86 and R87, decodes to the instruction it stands for. -/
def Obligations.SampleWordsDecode : Prop :=
  decodeTableWord 16 0xD125 = some (.drw 1 2 5) ∧ decodeTableWord 16 0x220E = some (.call 0x20E#12) ∧
  decodeTableWord 16 0x3F42 = some (.seImm 15 0x42#8) ∧ decodeTableWord 16 0xE59E = some (.skp 5) ∧
  decodeTableWord 16 0x8A35 = some (.sub 10 3) ∧ decodeTableWord 16 0xC30F = some (.rnd 3 0x0F#8) ∧
  decodeTableWord 16 0xFA33 = some (.ldBVx 10) ∧ decodeTableWord 16 0xF10A = some (.ldVxK 1) ∧
  decodeTableWord 16 0x5121 = none ∧ decodeTableWord 16 0x0123 = none

/-- The words that decode to nothing are exactly those R89 lists (a rule the spec marks derived from R86 and R88). -/
def Obligations.IllegalWordsAreThoseListed : Prop :=
  ∀ op : Word, decodeWord op = none ↔
    (op.toNat / 0x1000 = 0x0 ∧ op ≠ 0x00E0#16 ∧ op ≠ 0x00EE#16) ∨
    (op.toNat / 0x1000 = 0x5 ∧ op.toNat % 0x10 ≠ 0) ∨
    (op.toNat / 0x1000 = 0x8 ∧ op.toNat % 0x10 ∈ [0x8, 0x9, 0xA, 0xB, 0xC, 0xD, 0xF]) ∨
    (op.toNat / 0x1000 = 0x9 ∧ op.toNat % 0x10 ≠ 0) ∨
    (op.toNat / 0x1000 = 0xE ∧ op.toNat % 0x100 ∉ [0x9E, 0xA1]) ∨
    (op.toNat / 0x1000 = 0xF ∧ op.toNat % 0x100 ∉ [0x07, 0x0A, 0x15, 0x18, 0x1E, 0x29, 0x33, 0x55, 0x65])

/-! ## The step (30_encoding.md sections 1 and 2, 60_exceptions.md section 1) -/

/-- Where the latch is clear and the two bytes at pc decode to an instruction, step is exec of that instruction at that
state: nothing is added before or after it (30_encoding.md section 2, timers decoupled). -/
def Obligations.StepRunsTheDecodedInstruction : Prop :=
  ∀ (s : State) (i : Instr), s.fault = none → s.pc.toNat ≤ 0xFFE →
    decode [readByte s.mem s.pc.toNat, readByte s.mem (s.pc.toNat + 1)] = .ok (i, []) → step s = exec i s

/-- R83: the fetch reads mem[pc] ++ mem[pc + 1] for pc up to 0xFFE, odd or even, and otherwise raises FETCH_OUT_OF_RANGE
with the lowest rejected address; pc is not changed. -/
def Obligations.FetchReadsBigEndianOrFaults : Prop :=
  ∀ s : State,
    (s.pc.toNat ≤ 0xFFE → fetch s = .ok (BitVec.ofNat 16
      ((readByte s.mem s.pc.toNat).toNat * 256 + (readByte s.mem (s.pc.toNat + 1)).toNat))) ∧
    (s.fault = none → s.pc.toNat > 0xFFE →
      step s = .next (s.latched 1 0x0000 (if s.pc.toNat > 0xFFF then s.pc.toNat else s.pc.toNat + 1) 0))

/-- R241 (decision D4): while the latch is set every STEP changes nothing and returns the latched record; INIT, and no
other operation, clears it; the other operations act as they would with the latch clear. -/
def Obligations.SetLatchStopsEveryStep : Prop :=
  ∀ (p : Params) (s : State) (r : FaultRecord), s.fault = some r →
    step s = .next s ∧ hostApply p .step s = .next (s, .stepFault r none) ∧
    (∀ n, Sys2Proof.core.run n s = .next s) ∧
    (∃ t res, hostApply p .init s = .next (t, res) ∧ t.fault = none) ∧
    ∀ op, op ≠ .init → op ≠ .step →
      ∃ t res, hostApply p op s = .next (t, res) ∧ t.fault = some r ∧
        (op ≠ .readFault → hostApply p op { s with fault := none } = .next ({ t with fault := none }, res))

/-- R240 (decisions D4, D5): a STEP that faults makes exactly one change, setting the latch to a record of the faulting
instruction's pc and fetched word (0x0000 for a fetch fault), with 0 in absent info fields, and returns that record. -/
def Obligations.FaultingStepOnlySetsTheLatch : Prop :=
  ∀ (s t : State) (r : FaultRecord), s.fault = none → step s = .next t → t.fault = some r →
    t = { s with fault := some r } ∧ r.pc = s.pc ∧
    r.opcode = (if s.pc.toNat ≤ 0xFFE then BitVec.ofNat 16 s.wordAtPc else 0x0000#16) ∧
    (r.cause = 0x02#8 ∨ r.cause = 0x04#8 → r.info0 = 0x0000#16) ∧
    (r.cause ≠ 0x03#8 → r.cause ≠ 0x07#8 → r.info1 = 0x0000#16) ∧
    hostApply coreParams .step s = .next (t, .stepFault r none)

/-- R242 and R250 (decisions D5, D25): a STEP faults exactly when the first applicable check fails, in the order latch,
fetch, decode, the instruction's own checks, with that check's cause code and info fields; otherwise it leaves the latch
clear. LOAD's rejection has code 0x08 and is not latched. -/
def Obligations.StepFaultsExactlyByPriority : Prop :=
  (∀ s : State, s.fault = none →
    (∀ t, expectedFaultState s = some t → step s = .next t) ∧
    (expectedFaultState s = none → ∃ t, step s = .next t ∧ t.fault = none)) ∧
  (∀ s : State, s.fault ≠ none → step s = .next s) ∧
  loadTooLargeCode = 0x08#8 ∧
  ∀ (s : State) (image : List Byte), image.length > 3584 → s.load image = (s, .loadTooLarge)

/-! ## Reset and the invariant -/

/-- The state after INIT, and after INIT from any state, meets the invariant (memory's canonical form is the model's
representation, log entry 5). -/
def Obligations.InvariantHoldsAfterInit : Prop :=
  State.reset.Inv ∧ ∀ (p : Params) (s : State), (s.init p).Inv

/-- Every STEP keeps the invariant: memory stays canonical, pc stays at most 0x10FE (R25, marked derived), stack entries
stay instruction addresses, a latched record names the current pc and a defined cause. -/
def Obligations.StepKeepsTheInvariant : Prop :=
  ∀ s t : State, s.Inv → step s = .next t → t.Inv

/-- Every sequence of host operations, under any parameter values, keeps the invariant. -/
def Obligations.HostRunsKeepTheInvariant : Prop :=
  ∀ (p : Params) (ops : List HostOp) (s t : State), s.Inv → hostRun p ops s = .next t → t.Inv

/-- R290 (decision D4): INIT, at any time, gives every piece of state its reset value, with memory zero but for the
font; `State.reset` is that state for the CORE's font; and INIT is the only operation that clears the latch. -/
def Obligations.InitGivesTheResetState : Prop :=
  State.reset.IsReset coreParams ∧
  (∀ (p : Params) (s : State), ∃ t, hostApply p .init s = .next (t, .none) ∧ t.IsReset p) ∧
  ∀ (p : Params) (op : HostOp) (s t : State) (res : HostResult), hostApply p op s = .next (t, res) → s.fault ≠ none →
    t.fault = none → op = .init

/-! ## Display (40_display.md) -/

/-- R110: CLS. -/
def Obligations.ClsClearsTheScreen : Prop :=
  EncodedAs .cls 0x00E0 ∧
  ∀ s : State, ∃ t, exec .cls s = .next t ∧ (∀ y x, pixelAt t.fb y x = false) ∧ t.redraw = true ∧
    t.pc = s.pc + 2#16 ∧ Frame [] [.fb, .redraw] s t

/-- DRW of the CORE (eight columns, off-grid bits fault): where the rows lie in memory and every set bit on the grid, it
completes, XORs exactly the sprite's pixels, sets VF to whether some pixel went from on to off, and changes nothing else.
Otherwise it faults, memory before screen, the screen fault naming the first off-grid bit. -/
def Obligations.DrwDrawsBySpriteXor : Prop :=
  ∀ (x y : Reg) (n : Nat) (s : State), n ≤ 15 →
    ((n = 0 ∨ s.I.toNat + n - 1 ≤ 0xFFF) → (∀ r c, s.offGridBit 8 x y n r c = false) →
      ∃ t, exec (.drw x y n) s = .next t ∧
        (∀ row col, row < 32 → col < 64 →
          pixelAt t.fb row col = (pixelAt s.fb row col ^^ s.spriteCovers 8 x y n row col)) ∧
        ((∃ row col, s.spriteCovers 8 x y n row col = true ∧ pixelAt s.fb row col = true) → t.readV 15 = 0x01#8) ∧
        ((∀ row col, s.spriteCovers 8 x y n row col = true → pixelAt s.fb row col = false) → t.readV 15 = 0x00#8) ∧
        t.redraw = true ∧ t.pc = s.pc + 2#16 ∧ Frame [15] [.fb, .redraw] s t) ∧
    (n ≠ 0 → s.I.toNat + n - 1 > 0xFFF →
      exec (.drw x y n) s =
        .next (s.latched 5 (0xD000 + x.val * 0x100 + y.val * 0x10 + n) (max s.I.toNat 0x1000) 0)) ∧
    ((n = 0 ∨ s.I.toNat + n - 1 ≤ 0xFFF) → ∀ r c, s.offGridBit 8 x y n r c = true →
      (∀ r' c', s.offGridBit 8 x y n r' c' = true → r < r' ∨ (r = r' ∧ c ≤ c')) →
      exec (.drw x y n) s =
        .next (s.latched 7 (0xD000 + x.val * 0x100 + y.val * 0x10 + n) ((s.readV x).toNat + c) ((s.readV y).toNat + r)))

/-- R111 under every value of SPRITE_ROW_WIDTH and OFFSCREEN_POLICY (decisions D12, D13, D14), the CORE's among them: the
encoding, the memory check, the screen check where the policy is fault, and the drawing of the on-grid bits. -/
def Obligations.DrwUnderEveryParameterValue : Prop :=
  (∀ (x y : Reg) (n : Nat) (s : State), execWith coreParams (.drw x y n) s = exec (.drw x y n) s) ∧
  ∀ (p : Params) (w : Nat) (x y : Reg) (n : Nat) (s : State), n ≤ 15 →
    w = (if p.spriteRowWidth = .eight then 8 else 7) →
    EncodedAs (.drw x y n) (0xD000 + x.val * 0x100 + y.val * 0x10 + n) ∧
    (n ≠ 0 → s.I.toNat + n - 1 > 0xFFF →
      execWith p (.drw x y n) s =
        .next (s.latched 5 (0xD000 + x.val * 0x100 + y.val * 0x10 + n) (max s.I.toNat 0x1000) 0)) ∧
    ((n = 0 ∨ s.I.toNat + n - 1 ≤ 0xFFF) → p.offscreenPolicy = .fault → ∀ r c, s.offGridBit w x y n r c = true →
      (∀ r' c', s.offGridBit w x y n r' c' = true → r < r' ∨ (r = r' ∧ c ≤ c')) →
      execWith p (.drw x y n) s =
        .next (s.latched 7 (0xD000 + x.val * 0x100 + y.val * 0x10 + n) ((s.readV x).toNat + c)
          ((s.readV y).toNat + r))) ∧
    ((n = 0 ∨ s.I.toNat + n - 1 ≤ 0xFFF) →
      (p.offscreenPolicy = .clip ∨ ∀ r c, s.offGridBit w x y n r c = false) →
      ∃ t, execWith p (.drw x y n) s = .next t ∧
        (∀ row col, row < 32 → col < 64 →
          pixelAt t.fb row col = (pixelAt s.fb row col ^^ s.spriteCovers w x y n row col)) ∧
        ((∃ row col, row < 32 ∧ col < 64 ∧ s.spriteCovers w x y n row col = true ∧ pixelAt s.fb row col = true) →
          t.readV 15 = 0x01#8) ∧
        ((∀ row col, row < 32 → col < 64 → s.spriteCovers w x y n row col = true → pixelAt s.fb row col = false) →
          t.readV 15 = 0x00#8) ∧
        t.redraw = true ∧ t.pc = s.pc + 2#16 ∧ Frame [15] [.fb, .redraw] s t)

/-- Two identical draws restore the framebuffer, and the second one's VF is 1 exactly when some set bit lands on a pixel
that was off before the first (R111 corner case (f), 90_conflicts.md C5). The coordinate registers are not VF, which the
first draw overwrites. -/
def Obligations.DrwTwiceRestoresTheScreen : Prop :=
  ∀ (x y : Reg) (n : Nat) (s : State), x ≠ 15 → y ≠ 15 → (n = 0 ∨ s.I.toNat + n - 1 ≤ 0xFFF) →
    (∀ r c, s.offGridBit 8 x y n r c = false) →
    ∃ t u, exec (.drw x y n) s = .next t ∧ exec (.drw x y n) t = .next u ∧ u.fb = s.fb ∧
      ((∃ row col, s.spriteCovers 8 x y n row col = true ∧ pixelAt s.fb row col = false) → u.readV 15 = 0x01#8) ∧
      ((∀ row col, s.spriteCovers 8 x y n row col = true → pixelAt s.fb row col = true) → u.readV 15 = 0x00#8)

/-! ## Control transfer (41_control_transfer.md) -/

/-- R130 (the underflow fault is decision D2): RET. -/
def Obligations.RetPopsTheStack : Prop :=
  EncodedAs .ret 0x00EE ∧
  ∀ s : State,
    (∀ k : Fin 16, k.val + 1 = s.sp.val → ∃ t, exec .ret s = .next t ∧ t.sp.val = k.val ∧
      t.pc = s.stack[k] + 2#16 ∧ Frame [] [.sp] s t) ∧
    (s.sp.val = 0 → exec .ret s = .next (s.latched 4 0x00EE 0 0))

/-- R131: JP, to any address, odd ones too. (That a jump to itself changes nothing is `EndedProgramsStayPut`.) -/
def Obligations.JpJumps : Prop :=
  ∀ (nnn : Addr) (s : State), EncodedAs (.jp nnn) (0x1000 + nnn.toNat) ∧
    ∃ t, exec (.jp nnn) s = .next t ∧ t.pc.toNat = nnn.toNat ∧ Frame [] [] s t

/-- R132 (the overflow fault is decision D2): CALL pushes its own address. -/
def Obligations.CallPushesItsOwnAddress : Prop :=
  ∀ (nnn : Addr) (s : State), EncodedAs (.call nnn) (0x2000 + nnn.toNat) ∧
    (∀ k : Fin 16, k.val = s.sp.val → ∃ t, exec (.call nnn) s = .next t ∧ t.stack[k] = s.pc ∧
      (∀ j : Fin 16, j ≠ k → t.stack[j] = s.stack[j]) ∧ t.sp.val = s.sp.val + 1 ∧ t.pc.toNat = nnn.toNat ∧
      Frame [] [.sp, .stack] s t) ∧
    (s.sp.val = 16 → exec (.call nnn) s = .next (s.latched 3 (0x2000 + nnn.toNat) nnn.toNat 16))

/-- R133: JP V0 adds V0, whatever the digit where other classes have X, and does not wrap. -/
def Obligations.JpV0AddsV0 : Prop :=
  ∀ (nnn : Addr) (s : State), EncodedAs (.jpV0 nnn) (0xB000 + nnn.toNat) ∧
    ∃ t, exec (.jpV0 nnn) s = .next t ∧ t.pc.toNat = nnn.toNat + (s.readV 0).toNat ∧ Frame [] [] s t

/-- What a CALL saved is where a RET resumes: from any later state with the same sp and the same entry at the top, RET
goes to the instruction after the CALL and gives back the caller's sp (R130, R132, 90_conflicts.md C10). -/
def Obligations.RetResumesAfterTheCall : Prop :=
  ∀ (nnn : Addr) (s : State) (k : Fin 16), k.val = s.sp.val →
    ∃ t, exec (.call nnn) s = .next t ∧
      ∀ u : State, u.sp = t.sp → u.stack[k] = t.stack[k] →
        ∃ v, exec .ret u = .next v ∧ v.pc = s.pc + 2#16 ∧ v.sp = s.sp

/-! ## Skips (42_skips.md) -/

/-- R150 and R151: SE and SNE with an immediate. -/
def Obligations.ImmediateSkips : Prop :=
  ∀ (x : Reg) (nn : Byte) (s : State),
    EncodedAs (.seImm x nn) (0x3000 + x.val * 0x100 + nn.toNat) ∧
    EncodedAs (.sneImm x nn) (0x4000 + x.val * 0x100 + nn.toNat) ∧
    (∃ t, exec (.seImm x nn) s = .next t ∧ t.pc = (if s.readV x = nn then s.pc + 4#16 else s.pc + 2#16) ∧
      Frame [] [] s t) ∧
    (∃ t, exec (.sneImm x nn) s = .next t ∧ t.pc = (if s.readV x = nn then s.pc + 2#16 else s.pc + 4#16) ∧
      Frame [] [] s t)

/-- R152 and R153: SE and SNE of two registers. -/
def Obligations.RegisterSkips : Prop :=
  ∀ (x y : Reg) (s : State),
    EncodedAs (.seReg x y) (0x5000 + x.val * 0x100 + y.val * 0x10) ∧
    EncodedAs (.sneReg x y) (0x9000 + x.val * 0x100 + y.val * 0x10) ∧
    (∃ t, exec (.seReg x y) s = .next t ∧ t.pc = (if s.readV x = s.readV y then s.pc + 4#16 else s.pc + 2#16) ∧
      Frame [] [] s t) ∧
    (∃ t, exec (.sneReg x y) s = .next t ∧ t.pc = (if s.readV x = s.readV y then s.pc + 2#16 else s.pc + 4#16) ∧
      Frame [] [] s t)

/-- R154 and R155 (the key fault is decision D15): SKP and SKNP. -/
def Obligations.KeySkips : Prop :=
  ∀ (x : Reg) (s : State),
    EncodedAs (.skp x) (0xE09E + x.val * 0x100) ∧ EncodedAs (.sknp x) (0xE0A1 + x.val * 0x100) ∧
    (∀ k : Reg, k.val = (s.readV x).toNat →
      (∃ t, exec (.skp x) s = .next t ∧ t.pc = (if s.key[k] = true then s.pc + 4#16 else s.pc + 2#16) ∧
        Frame [] [] s t) ∧
      (∃ t, exec (.sknp x) s = .next t ∧ t.pc = (if s.key[k] = true then s.pc + 2#16 else s.pc + 4#16) ∧
        Frame [] [] s t)) ∧
    ((s.readV x).toNat > 15 →
      exec (.skp x) s = .next (s.latched 6 (0xE09E + x.val * 0x100) (s.readV x).toNat 0) ∧
      exec (.sknp x) s = .next (s.latched 6 (0xE0A1 + x.val * 0x100) (s.readV x).toNat 0))

/-! ## Register loads and ALU (43_alu.md) -/

/-- R170, R171 and R172: the loads and the immediate add, none of which writes VF as a flag. -/
def Obligations.RegisterLoads : Prop :=
  ∀ (x y : Reg) (nn : Byte) (s : State),
    EncodedAs (.ldImm x nn) (0x6000 + x.val * 0x100 + nn.toNat) ∧
    EncodedAs (.addImm x nn) (0x7000 + x.val * 0x100 + nn.toNat) ∧
    EncodedAs (.ldReg x y) (0x8000 + x.val * 0x100 + y.val * 0x10) ∧
    (∃ t, exec (.ldImm x nn) s = .next t ∧ t.readV x = nn ∧ t.pc = s.pc + 2#16 ∧ Frame [x] [] s t) ∧
    (∃ t, exec (.addImm x nn) s = .next t ∧ (t.readV x).toNat = ((s.readV x).toNat + nn.toNat) % 256 ∧
      t.pc = s.pc + 2#16 ∧ Frame [x] [] s t) ∧
    (∃ t, exec (.ldReg x y) s = .next t ∧ t.readV x = s.readV y ∧ t.pc = s.pc + 2#16 ∧ Frame [x] [] s t)

/-- R173, R174 and R175: the logical operations, bit by bit, and VF cleared last (so VX ends 0 for x = 15). -/
def Obligations.LogicalOperationsClearVF : Prop :=
  ∀ (x y : Reg) (s : State),
    EncodedAs (.orReg x y) (0x8001 + x.val * 0x100 + y.val * 0x10) ∧
    EncodedAs (.andReg x y) (0x8002 + x.val * 0x100 + y.val * 0x10) ∧
    EncodedAs (.xorReg x y) (0x8003 + x.val * 0x100 + y.val * 0x10) ∧
    (∃ t, exec (.orReg x y) s = .next t ∧
      (x ≠ 15 → ∀ b, (t.readV x).getLsbD b = ((s.readV x).getLsbD b || (s.readV y).getLsbD b)) ∧
      t.readV 15 = 0x00#8 ∧ t.pc = s.pc + 2#16 ∧ Frame [x, 15] [] s t) ∧
    (∃ t, exec (.andReg x y) s = .next t ∧
      (x ≠ 15 → ∀ b, (t.readV x).getLsbD b = ((s.readV x).getLsbD b && (s.readV y).getLsbD b)) ∧
      t.readV 15 = 0x00#8 ∧ t.pc = s.pc + 2#16 ∧ Frame [x, 15] [] s t) ∧
    (∃ t, exec (.xorReg x y) s = .next t ∧
      (x ≠ 15 → ∀ b, (t.readV x).getLsbD b = ((s.readV x).getLsbD b ^^ (s.readV y).getLsbD b)) ∧
      t.readV 15 = 0x00#8 ∧ t.pc = s.pc + 2#16 ∧ Frame [x, 15] [] s t)

/-- R176 (VF_OPERAND_ORDER is decision D11): ADD Vx, Vy, in the CORE's order with the corner cases of x and y = 15, and
in the latched order. -/
def Obligations.AddRegAddsWithCarry : Prop :=
  ∀ (x y : Reg) (s : State) (a b c : Nat), a = (s.readV x).toNat → b = (s.readV y).toNat →
    c = (if a + b > 255 then 1 else 0) →
    EncodedAs (.addReg x y) (0x8004 + x.val * 0x100 + y.val * 0x10) ∧
    (∃ t, exec (.addReg x y) s = .next t ∧
      (x ≠ 15 → y ≠ 15 → (t.readV x).toNat = (a + b) % 256 ∧ (t.readV 15).toNat = c) ∧
      (x = 15 → y ≠ 15 → (t.readV 15).toNat = (c + b) % 256) ∧
      (x ≠ 15 → y = 15 → (t.readV x).toNat = (a + c) % 256 ∧ (t.readV 15).toNat = c) ∧
      (x = 15 → y = 15 → (t.readV 15).toNat = 2 * c) ∧
      t.pc = s.pc + 2#16 ∧ Frame [x, 15] [] s t) ∧
    ∀ p : Params, p.vfOperandOrder = .latched → ∃ t, execWith p (.addReg x y) s = .next t ∧
      (x ≠ 15 → (t.readV x).toNat = (a + b) % 256) ∧ (t.readV 15).toNat = c ∧
      t.pc = s.pc + 2#16 ∧ Frame [x, 15] [] s t

/-- R177 (VF_OPERAND_ORDER is decision D11): SUB, VF = 1 when VX − VY does not borrow. -/
def Obligations.SubSubtractsWithNotBorrow : Prop :=
  ∀ (x y : Reg) (s : State) (a d b : Nat), a = (s.readV x).toNat → d = (s.readV y).toNat →
    b = (if d > a then 0 else 1) →
    EncodedAs (.sub x y) (0x8005 + x.val * 0x100 + y.val * 0x10) ∧
    (∃ t, exec (.sub x y) s = .next t ∧
      (x ≠ 15 → y ≠ 15 → (t.readV x).toNat = (a + 256 - d) % 256 ∧ (t.readV 15).toNat = b) ∧
      (x = 15 → y ≠ 15 → (t.readV 15).toNat = (b + 256 - d) % 256) ∧
      (x ≠ 15 → y = 15 → (t.readV x).toNat = (a + 256 - b) % 256 ∧ (t.readV 15).toNat = b) ∧
      (x = 15 → y = 15 → (t.readV 15).toNat = 0) ∧
      t.pc = s.pc + 2#16 ∧ Frame [x, 15] [] s t) ∧
    ∀ p : Params, p.vfOperandOrder = .latched → ∃ t, execWith p (.sub x y) s = .next t ∧
      (x ≠ 15 → (t.readV x).toNat = (a + 256 - d) % 256) ∧ (t.readV 15).toNat = b ∧
      t.pc = s.pc + 2#16 ∧ Frame [x, 15] [] s t

/-- R178 (VF_OPERAND_ORDER is decision D11): SHR shifts VX by one, whatever the Y field. -/
def Obligations.ShrShiftsRight : Prop :=
  ∀ (x y : Reg) (s : State) (a : Nat), a = (s.readV x).toNat →
    EncodedAs (.shr x y) (0x8006 + x.val * 0x100 + y.val * 0x10) ∧
    (∃ t, exec (.shr x y) s = .next t ∧
      (x ≠ 15 → (t.readV x).toNat = a / 2 ∧ (t.readV 15).toNat = a % 2) ∧
      (x = 15 → (t.readV 15).toNat = 0) ∧ t.pc = s.pc + 2#16 ∧ Frame [x, 15] [] s t) ∧
    ∀ p : Params, p.vfOperandOrder = .latched → ∃ t, execWith p (.shr x y) s = .next t ∧
      (x ≠ 15 → (t.readV x).toNat = a / 2) ∧ (t.readV 15).toNat = a % 2 ∧
      t.pc = s.pc + 2#16 ∧ Frame [x, 15] [] s t

/-- R179 (VF_OPERAND_ORDER is decision D11): SUBN, VF = 1 when VY − VX does not borrow. -/
def Obligations.SubnSubtractsReversed : Prop :=
  ∀ (x y : Reg) (s : State) (a d g : Nat), a = (s.readV x).toNat → d = (s.readV y).toNat →
    g = (if a > d then 0 else 1) →
    EncodedAs (.subn x y) (0x8007 + x.val * 0x100 + y.val * 0x10) ∧
    (∃ t, exec (.subn x y) s = .next t ∧
      (x ≠ 15 → y ≠ 15 → (t.readV x).toNat = (d + 256 - a) % 256 ∧ (t.readV 15).toNat = g) ∧
      (x = 15 → y ≠ 15 → (t.readV 15).toNat = (d + 256 - g) % 256) ∧
      (x ≠ 15 → y = 15 → (t.readV x).toNat = (g + 256 - a) % 256 ∧ (t.readV 15).toNat = g) ∧
      (x = 15 → y = 15 → (t.readV 15).toNat = 0) ∧
      t.pc = s.pc + 2#16 ∧ Frame [x, 15] [] s t) ∧
    ∀ p : Params, p.vfOperandOrder = .latched → ∃ t, execWith p (.subn x y) s = .next t ∧
      (x ≠ 15 → (t.readV x).toNat = (d + 256 - a) % 256) ∧ (t.readV 15).toNat = g ∧
      t.pc = s.pc + 2#16 ∧ Frame [x, 15] [] s t

/-- R180 (VF_OPERAND_ORDER is decision D11): SHL shifts VX by one, whatever the Y field. -/
def Obligations.ShlShiftsLeft : Prop :=
  ∀ (x y : Reg) (s : State) (a : Nat), a = (s.readV x).toNat →
    EncodedAs (.shl x y) (0x800E + x.val * 0x100 + y.val * 0x10) ∧
    (∃ t, exec (.shl x y) s = .next t ∧
      (x ≠ 15 → (t.readV x).toNat = 2 * a % 256 ∧ (t.readV 15).toNat = a / 128) ∧
      (x = 15 → (t.readV 15).toNat = 2 * (a / 128)) ∧ t.pc = s.pc + 2#16 ∧ Frame [x, 15] [] s t) ∧
    ∀ p : Params, p.vfOperandOrder = .latched → ∃ t, execWith p (.shl x y) s = .next t ∧
      (x ≠ 15 → (t.readV x).toNat = 2 * a % 256) ∧ (t.readV 15).toNat = a / 128 ∧
      t.pc = s.pc + 2#16 ∧ Frame [x, 15] [] s t

/-- RND masks the next random byte, whatever it is (43_alu.md R181; the free draw is decision D20). That draws are numbered
by `draws`, and that the draw is used up, is how the model keeps them apart: its own choice, log entry 1. -/
def Obligations.RndMasksAFreshDraw : Prop :=
  ∀ (x : Reg) (nn : Byte) (s : State),
    EncodedAs (.rnd x nn) (0xC000 + x.val * 0x100 + nn.toNat) ∧
    ∃ t, exec (.rnd x nn) s = .next t ∧ t.readV x = (Config.rngByte s.draws &&& nn) ∧ t.draws = s.draws + 1 ∧
      (nn = 0x00#8 → t.readV x = 0x00#8) ∧ (nn = 0xFF#8 → t.readV x = Config.rngByte s.draws) ∧
      t.pc = s.pc + 2#16 ∧ Frame [x] [.draws] s t

/-! ## Index register and memory (44_index_memory.md, 20_memory.md) -/

/-- R200, R201 and R202 (the wrap and the missing mask are decision D9): what writes I without touching memory. -/
def Obligations.IndexLoads : Prop :=
  ∀ (nnn : Addr) (x : Reg) (s : State),
    EncodedAs (.ldI nnn) (0xA000 + nnn.toNat) ∧ EncodedAs (.addIVx x) (0xF01E + x.val * 0x100) ∧
    EncodedAs (.ldFVx x) (0xF029 + x.val * 0x100) ∧
    (∃ t, exec (.ldI nnn) s = .next t ∧ t.I.toNat = nnn.toNat ∧ t.pc = s.pc + 2#16 ∧ Frame [] [.I] s t) ∧
    (∃ t, exec (.addIVx x) s = .next t ∧ t.I.toNat = (s.I.toNat + (s.readV x).toNat) % 65536 ∧
      t.pc = s.pc + 2#16 ∧ Frame [] [.I] s t) ∧
    (∃ t, exec (.ldFVx x) s = .next t ∧ t.I.toNat = (s.readV x).toNat * 5 ∧ t.pc = s.pc + 2#16 ∧ Frame [] [.I] s t)

/-- R203: LD B stores the three decimal digits at I, I + 1, I + 2 and nothing else, or faults with nothing stored. -/
def Obligations.BcdStoresDecimalDigits : Prop :=
  ∀ (x : Reg) (s : State), Memory.wf s.mem →
    EncodedAs (.ldBVx x) (0xF033 + x.val * 0x100) ∧
    (s.I.toNat + 2 ≤ 0xFFF → ∃ t, exec (.ldBVx x) s = .next t ∧
      (readByte t.mem s.I.toNat).toNat = (s.readV x).toNat / 100 ∧
      (readByte t.mem (s.I.toNat + 1)).toNat = (s.readV x).toNat / 10 % 10 ∧
      (readByte t.mem (s.I.toNat + 2)).toNat = (s.readV x).toNat % 10 ∧
      (∀ a, a < s.I.toNat ∨ s.I.toNat + 2 < a → readByte t.mem a = readByte s.mem a) ∧
      t.pc = s.pc + 2#16 ∧ Frame [] [.mem] s t) ∧
    (s.I.toNat + 2 > 0xFFF →
      exec (.ldBVx x) s = .next (s.latched 5 (0xF033 + x.val * 0x100) (max s.I.toNat 0x1000) 0))

/-- R204: LD [I], Vx stores V0..Vx at I upward and nothing else, and moves I past them, or faults with nothing stored. -/
def Obligations.StoreRegistersBlock : Prop :=
  ∀ (x : Reg) (s : State), Memory.wf s.mem →
    EncodedAs (.ldMemVx x) (0xF055 + x.val * 0x100) ∧
    (s.I.toNat + x.val ≤ 0xFFF → ∃ t, exec (.ldMemVx x) s = .next t ∧
      (∀ k : Reg, k ≤ x → readByte t.mem (s.I.toNat + k.val) = s.readV k) ∧
      (∀ a, a < s.I.toNat ∨ s.I.toNat + x.val < a → readByte t.mem a = readByte s.mem a) ∧
      t.I.toNat = s.I.toNat + x.val + 1 ∧ t.pc = s.pc + 2#16 ∧ Frame [] [.I, .mem] s t) ∧
    (s.I.toNat + x.val > 0xFFF →
      exec (.ldMemVx x) s = .next (s.latched 5 (0xF055 + x.val * 0x100) (max s.I.toNat 0x1000) 0))

/-- R205: LD Vx, [I] loads V0..Vx from I upward, and no other register, and moves I past them, or faults with nothing
loaded. -/
def Obligations.LoadRegistersBlock : Prop :=
  ∀ (x : Reg) (s : State),
    EncodedAs (.ldVxMem x) (0xF065 + x.val * 0x100) ∧
    (s.I.toNat + x.val ≤ 0xFFF → ∃ t, exec (.ldVxMem x) s = .next t ∧
      (∀ k : Reg, k ≤ x → t.readV k = readByte s.mem (s.I.toNat + k.val)) ∧
      (∀ k : Reg, x < k → t.readV k = s.readV k) ∧
      t.I.toNat = s.I.toNat + x.val + 1 ∧ t.pc = s.pc + 2#16 ∧ Frame (List.finRange 16) [.I] s t) ∧
    (s.I.toNat + x.val > 0xFFF →
      exec (.ldVxMem x) s = .next (s.latched 5 (0xF065 + x.val * 0x100) (max s.I.toNat 0x1000) 0))

/-- R53 (decision D16): the four instructions that access a block from I are rejected as a whole, reads and writes alike,
exactly when a block of n ≥ 1 bytes leaves memory, with the lowest rejected address in the record. (The empty block,
R54, is in the statements about DRW.) -/
def Obligations.BlocksAreCheckedWhole : Prop :=
  ∀ (i : Instr) (n : Nat) (s : State), blockLength i = some n →
    (1 ≤ n → s.I.toNat + n - 1 > 0xFFF →
      exec i s = .next (s.latched 5 (encode i).toNat (max s.I.toNat 0x1000) 0)) ∧
    (1 ≤ n → s.I.toNat + n - 1 ≤ 0xFFF → s.fault = none →
      ∃ t, exec i s = .next t ∧ ∀ r, t.fault = some r → r.cause ≠ 0x05#8)

/-- Memory that LD [I], Vx stored, LD Vx, [I] loads back: from any state with that memory and the old I, the registers
get the values they were stored from (R60, R204, R205). -/
def Obligations.StoreThenLoadRestoresRegisters : Prop :=
  ∀ (x : Reg) (s : State), Memory.wf s.mem → s.I.toNat + x.val ≤ 0xFFF →
    ∃ t, exec (.ldMemVx x) s = .next t ∧
      ∀ u : State, (∀ a, readByte u.mem a = readByte t.mem a) → u.I = s.I →
        ∃ v, exec (.ldVxMem x) u = .next v ∧ ∀ k : Reg, k ≤ x → v.readV k = s.readV k

/-- Self-modifying code: an instruction word that LD [I], Vx stores at the next instruction's address is what the next
STEP runs (20_memory.md section 4; R64 and R298 are marked derived). -/
def Obligations.StoredInstructionRunsNext : Prop :=
  ∀ (x : Reg) (k : Nat) (hk : k + 1 ≤ x.val) (i : Instr) (s : State), Memory.wf s.mem → s.fault = none →
    s.I.toNat + x.val ≤ 0xFFF → s.pc.toNat + 2 = s.I.toNat + k →
    decode [s.readV ⟨k, by omega⟩, s.readV ⟨k + 1, by omega⟩] = .ok (i, []) →
    ∃ t, exec (.ldMemVx x) s = .next t ∧ step t = exec i t

/-- Two memories in canonical form that read the same at every address are the same list: equal memories are equal data
(the representation is the model's, log entry 5). -/
def Obligations.CanonicalMemoryIsItsReads : Prop :=
  ∀ m m' : Memory, Memory.wf m → Memory.wf m' → (∀ a, readByte m a = readByte m' a) → m = m'

/-! ## Timers and key wait (45_timers_keywait.md) -/

/-- R220, R222 and R223 (decision D18): reading and setting the timers. A write to ST answers a plain next state, with no
tone; the TICK after it gives one exactly when it wrote 1. -/
def Obligations.TimerRegisterMoves : Prop :=
  ∀ (x : Reg) (s : State),
    EncodedAs (.ldVxDt x) (0xF007 + x.val * 0x100) ∧ EncodedAs (.ldDtVx x) (0xF015 + x.val * 0x100) ∧
    EncodedAs (.ldStVx x) (0xF018 + x.val * 0x100) ∧
    (∃ t, exec (.ldVxDt x) s = .next t ∧ t.readV x = s.DT ∧ t.pc = s.pc + 2#16 ∧ Frame [x] [] s t) ∧
    (∃ t, exec (.ldDtVx x) s = .next t ∧ t.DT = s.readV x ∧ t.pc = s.pc + 2#16 ∧ Frame [] [.DT] s t) ∧
    (∃ t, exec (.ldStVx x) s = .next t ∧ t.ST = s.readV x ∧ t.tick.2 = decide ((s.readV x).toNat = 1) ∧
      t.pc = s.pc + 2#16 ∧ Frame [] [.ST] s t)

/-- R221: LD Vx, K takes the lowest pressed key; with none pressed it changes nothing, pc included. -/
def Obligations.KeyWaitTakesTheLowestKey : Prop :=
  ∀ (x : Reg) (s : State),
    EncodedAs (.ldVxK x) (0xF00A + x.val * 0x100) ∧
    (∀ k : Reg, s.key[k] = true → (∀ j : Reg, j < k → s.key[j] = false) →
      ∃ t, exec (.ldVxK x) s = .next t ∧ (t.readV x).toNat = k.val ∧ t.pc = s.pc + 2#16 ∧ Frame [x] [] s t) ∧
    ((∀ k : Reg, s.key[k] = false) → exec (.ldVxK x) s = .next s)

/-! ## Whole-machine rules -/

/-- The "written by" column of R20, and R21's list: no instruction writes a register or a piece of state it is not
listed for; the latch is written by a fault alone, that is, when it changes nothing else does. -/
def Obligations.OnlyListedInstructionsWrite : Prop :=
  ∀ (i : Instr) (s t : State), exec i s = .next t →
    (∀ r, writesReg i r = false → t.readV r = s.readV r) ∧
    (∀ p : Part, p ≠ .fault → writesPart i p = false → p.Kept s t) ∧
    (t.fault = s.fault ∨ t = { s with fault := t.fault })

/-- R24: pc starts at 0x200, and an instruction that does not fault moves it by 2, by 4 for a taken skip, not at all for a
waiting LD Vx, K, and to its target for the four transfers, from any pc (no alignment, decision D7); a faulting one leaves
it. -/
def Obligations.PcMovesAsTheRulesSay : Prop :=
  State.reset.pc = 0x0200#16 ∧
  ∀ (i : Instr) (s t : State), s.fault = none → exec i s = .next t →
    (t.fault ≠ none → t.pc = s.pc) ∧
    (t.fault = none →
      match i with
      | .jp nnn => t.pc.toNat = nnn.toNat
      | .call nnn => t.pc.toNat = nnn.toNat
      | .jpV0 nnn => t.pc.toNat = nnn.toNat + (s.readV 0).toNat
      | .ret => ∃ k : Fin 16, k.val + 1 = s.sp.val ∧ t.pc = s.stack[k] + 2#16
      | .seImm x nn => t.pc = (if s.readV x = nn then s.pc + 4#16 else s.pc + 2#16)
      | .sneImm x nn => t.pc = (if s.readV x = nn then s.pc + 2#16 else s.pc + 4#16)
      | .seReg x y => t.pc = (if s.readV x = s.readV y then s.pc + 4#16 else s.pc + 2#16)
      | .sneReg x y => t.pc = (if s.readV x = s.readV y then s.pc + 2#16 else s.pc + 4#16)
      | .skp x => ∃ k : Reg, k.val = (s.readV x).toNat ∧
          t.pc = (if s.key[k] = true then s.pc + 4#16 else s.pc + 2#16)
      | .sknp x => ∃ k : Reg, k.val = (s.readV x).toNat ∧
          t.pc = (if s.key[k] = true then s.pc + 2#16 else s.pc + 4#16)
      | .ldVxK _ => t.pc = (if ∀ k : Reg, s.key[k] = false then s.pc else s.pc + 2#16)
      | _ => t.pc = s.pc + 2#16)

/-- R29 (decision D26): a pop clears no entry, and no STEP reads a dead one: states that agree but for entries at sp and
above step to states that agree but for entries at sp and above. -/
def Obligations.DeadStackEntriesAreUnread : Prop :=
  (∀ s t : State, exec .ret s = .next t → t.stack = s.stack) ∧
  ∀ s s' t : State, s.SameLive s' → step s = .next t → ∃ t', step s' = .next t' ∧ t.SameLive t'

/-- ST and the redraw flag are read by no instruction (the "read by" column of R20; R30): changing them changes nothing
else of the next state. -/
def Obligations.SoundTimerAndRedrawAreUnread : Prop :=
  ∀ (s t : State) (st : Byte) (rd : Bool), step s = .next t →
    ∃ st' rd', step { s with ST := st, redraw := rd } = .next { t with ST := st', redraw := rd' }

/-- A program's end (R296): at a jump to itself, or at a key wait with no key pressed, any number of STEPs leaves the
state as it is. -/
def Obligations.EndedProgramsStayPut : Prop :=
  ∀ (n : Nat) (s : State), s.fault = none → s.pc.toNat ≤ 0xFFE →
    ((∃ nnn, decodeWord (BitVec.ofNat 16 s.wordAtPc) = some (.jp nnn) ∧ nnn.toNat = s.pc.toNat) ∨
      (∃ x, decodeWord (BitVec.ofNat 16 s.wordAtPc) = some (.ldVxK x) ∧ ∀ k : Reg, s.key[k] = false)) →
    Sys2Proof.core.run n s = .next s

/-! ## Parameters and the host interface (00_scope.md R6, 60_exceptions.md sections 3 to 5) -/

/-- With the CORE's parameter values (R6) the parametrised machine is the CORE: exec, STEP without a tone bit, INIT. -/
def Obligations.CoreParametersGiveTheCore : Prop :=
  (∀ (i : Instr) (s : State), execWith coreParams i s = exec i s) ∧
  (∀ s t : State, step s = .next t → stepWith coreParams s = .next (t, none)) ∧
  State.resetWith coreParams = State.reset

/-- TIMER_COUPLING (60_exceptions.md section 3, decision D17): decoupled, a STEP adds nothing to its instruction; per_step,
a STEP that ends with the latch clear ends with one TICK and returns its tone bit, a faulting one ticks only if
PER_STEP_TICK_ON_FAULT. R262 gives a tone bit only for a STEP that returns ok: that a faulting STEP which ticks returns one
too is the model's choice, log entry 7. -/
def Obligations.TimerCouplingAddsOneTick : Prop :=
  ∀ (p : Params) (s t : State), s.fault = none → cycle (execWith p) s = .next t →
    (p.timerCoupling = .decoupled → stepWith p s = .next (t, none)) ∧
    ∀ onFault, p.timerCoupling = .perStep onFault →
      (t.fault = none ∨ onFault = true →
        ∃ u, stepWith p s = .next (u, some (decide (t.ST = 0x01#8))) ∧ u.DT.toNat = t.DT.toNat - 1 ∧
          u.ST.toNat = t.ST.toNat - 1 ∧ u.pc = t.pc ∧ Frame [] [.DT, .ST] t u) ∧
      (t.fault ≠ none → onFault = false → stepWith p s = .next (t, none))

/-- R260 and R261 (decisions D17, D18): TICK counts both timers down to a floor of 0 and changes nothing else; its tone
bit is 1 exactly when ST was 1; no STEP of the CORE gives a tone bit. -/
def Obligations.TickCountsDown : Prop :=
  (∀ (p : Params) (s : State), ∃ t, hostApply p .tick s = .next (t, .tone (decide (s.ST.toNat = 1))) ∧
    t.DT.toNat = s.DT.toNat - 1 ∧ t.ST.toNat = s.ST.toNat - 1 ∧ t.pc = s.pc ∧ Frame [] [.DT, .ST] s t) ∧
  ∀ (s t : State) (res : HostResult), hostApply coreParams .step s = .next (t, res) →
    res = .stepOk none ∨ ∃ r, res = .stepFault r none

/-- Timer durations are in TICKs, however many STEPs run meanwhile (R301, marked derived): over any host operations but
INIT, under decoupled timers or with a latch that stops every STEP, DT goes down by the number of TICKs, to a floor of 0, if
no STEP runs LD DT, Vx, and ST does if none runs LD ST, Vx. R301 speaks of decoupled timers only: that a per_step STEP on a
set latch does not tick is the model's reading of R241 (a STEP then changes nothing), log entry 7. -/
def Obligations.TimersRunDownByTicks : Prop :=
  ∀ (p : Params) (ops : List HostOp) (s : State), .init ∉ ops →
    (p.timerCoupling = .decoupled ∨ (.step ∈ ops → s.fault ≠ none)) →
    ∃ t, hostRun p ops s = .next t ∧
      ((∀ pre post u, ops = pre ++ .step :: post → hostRun p pre s = .next u → ∀ x, ¬ u.Runs (.ldDtVx x)) →
        t.DT.toNat = s.DT.toNat - ops.count .tick) ∧
      ((∀ pre post u, ops = pre ++ .step :: post → hostRun p pre s = .next u → ∀ x, ¬ u.Runs (.ldStVx x)) →
        t.ST.toNat = s.ST.toNat - ops.count .tick)

/-- R291 and R249 (decision D22): LOAD copies the whole image to 0x200 upward and changes nothing else, or rejects an
image of more than 3584 bytes and changes nothing, the latch not set. -/
def Obligations.LoadCopiesTheImageOrNothing : Prop :=
  ∀ (p : Params) (image : List Byte) (s : State), Memory.wf s.mem →
    (image.length ≤ 3584 → ∃ t, hostApply p (.load image) s = .next (t, .loadOk) ∧
      (∀ (k : Nat) (h : k < image.length), readByte t.mem (0x200 + k) = image[k]) ∧
      (∀ a, a < 0x200 ∨ 0x200 + image.length ≤ a → readByte t.mem a = readByte s.mem a) ∧
      t.pc = s.pc ∧ Frame [] [.mem] s t) ∧
    (image.length > 3584 → hostApply p (.load image) s = .next (s, .loadTooLarge))

/-- R264, R265 and R266: the ports. Reading changes nothing; WRITE_KEYS sets key k to bit k and CLEAR_REDRAW clears the
flag, and nothing else; no other operation but INIT writes the key lines, no other clears a set redraw flag, and only INIT
and STEP write the framebuffer. -/
def Obligations.HostPortsDoOnlyTheirPart : Prop :=
  (∀ (p : Params) (s : State), hostApply p .readFb s = .next (s, .pixels s.fb) ∧
    hostApply p .readRedraw s = .next (s, .redrawBit s.redraw) ∧ hostApply p .readFault s = .next (s, .latch s.fault)) ∧
  (∀ (p : Params) (lines : Word) (s : State), ∃ t, hostApply p (.writeKeys lines) s = .next (t, .none) ∧
    (∀ k : Reg, t.key[k] = lines.getLsbD k.val) ∧ t.pc = s.pc ∧ Frame [] [.key] s t) ∧
  (∀ (p : Params) (s : State), ∃ t, hostApply p .clearRedraw s = .next (t, .none) ∧ t.redraw = false ∧ t.pc = s.pc ∧
    Frame [] [.redraw] s t) ∧
  ∀ (p : Params) (op : HostOp) (s t : State) (res : HostResult), hostApply p op s = .next (t, res) →
    (t.key ≠ s.key → op = .init ∨ ∃ lines, op = .writeKeys lines) ∧
    (s.redraw = true → t.redraw = false → op = .clearRedraw) ∧
    (t.fb ≠ s.fb → op = .init ∨ op = .step)

/-- Every host operation, STEP among them, answers a next state from every state: no instruction, word or pc ends a run
(a fault is a next state with the latch set, log entry 3). -/
def Obligations.EveryHostOperationAnswers : Prop :=
  ∀ (p : Params) (op : HostOp) (s : State), ∃ t res, hostApply p op s = .next (t, res)
end

