-- ==== Sys2Proof/Laws/Display.lean ====
section
/-! SUPPORT. The laws of the framebuffer and of sprites: what flipping one pixel does, what drawing a list of distinct
pixels does, and which bits a sprite has, in which order. -/

namespace Sys2Proof.Machine

theorem pixelAt_off_grid {y x : Nat} (fb : Framebuffer) (h : ¬ (y < 32 ∧ x < 64)) : pixelAt fb y x = false := by
  simp [pixelAt, h]

@[simp] theorem pixelAt_clearedFb (y x : Nat) : pixelAt clearedFb y x = false := by
  simp [pixelAt, clearedFb]

theorem pixelAt_flipPixel (fb : Framebuffer) {y x : Nat} (h : y < 32 ∧ x < 64) (y' x' : Nat) :
    pixelAt (flipPixel fb y x) y' x' = if y' = y ∧ x' = x then !pixelAt fb y x else pixelAt fb y' x' := by
  by_cases h' : y' < 32 ∧ x' < 64
  · simp only [pixelAt, flipPixel, h, h', and_self, dite_true, Vector.getElem_set]
    by_cases hy : y = y'
    · subst hy
      by_cases hx : x = x'
      · subst hx; simp
      · have hx' : ¬ x' = x := fun e => hx e.symm
        simp [hx, hx']
    · have hy' : ¬ y' = y := fun e => hy e.symm
      simp [hy, hy']
  · have hne : ¬ (y' = y ∧ x' = x) := fun e => h' (e.1 ▸ e.2 ▸ h)
    rw [pixelAt_off_grid _ h', pixelAt_off_grid _ h', if_neg hne]

/-- Framebuffers with the same pixels are the same. -/
theorem framebuffer_ext {f g : Framebuffer} (h : ∀ y x, y < 32 → x < 64 → pixelAt f y x = pixelAt g y x) : f = g := by
  apply Vector.ext
  intro y hy
  apply Vector.ext
  intro x hx
  simpa [pixelAt, hy, hx] using h y x hy hx

/-- Drawing distinct on-grid pixels from an accumulated picture and flag. -/
theorem drawPixels_acc (qs : List (Nat × Nat)) : ∀ (acc : Framebuffer × Bool), qs.Nodup → (∀ q ∈ qs, onGrid q = true) →
    let r := qs.foldl (fun acc q => (flipPixel acc.1 q.1 q.2, acc.2 || pixelAt acc.1 q.1 q.2)) acc
    (∀ y x, pixelAt r.1 y x = (pixelAt acc.1 y x ^^ decide ((y, x) ∈ qs))) ∧
      r.2 = (acc.2 || qs.any fun q => pixelAt acc.1 q.1 q.2) := by
  induction qs with
  | nil => intro acc _ _; simp
  | cons q qs ih =>
    intro acc hnd hgrid
    obtain ⟨hq, hqs⟩ := List.nodup_cons.1 hnd
    have hg : q.1 < 32 ∧ q.2 < 64 := by simpa [onGrid] using hgrid q (by simp)
    obtain ⟨hpix, hflag⟩ := ih (flipPixel acc.1 q.1 q.2, acc.2 || pixelAt acc.1 q.1 q.2) hqs
      (fun p hp => hgrid p (by simp [hp]))
    refine ⟨fun y x => ?_, ?_⟩
    · rw [List.foldl_cons, hpix y x, pixelAt_flipPixel _ hg]
      by_cases e : (y, x) = q
      · subst e; simp [hq]
      · have e' : ¬ (y = q.1 ∧ x = q.2) := fun h => e (Prod.ext h.1 h.2)
        simp [e', e]
    · rw [List.foldl_cons, hflag]
      have hsame : ∀ p ∈ qs, pixelAt (flipPixel acc.1 q.1 q.2) p.1 p.2 = pixelAt acc.1 p.1 p.2 := by
        intro p hp
        rw [pixelAt_flipPixel _ hg]
        have : ¬ (p.1 = q.1 ∧ p.2 = q.2) := fun h => hq (by rw [← Prod.ext h.1 h.2]; exact hp)
        simp [this]
      have hany : (qs.any fun p => pixelAt (flipPixel acc.1 q.1 q.2) p.1 p.2) = qs.any fun p => pixelAt acc.1 p.1 p.2 := by
        rw [Bool.eq_iff_iff, List.any_eq_true, List.any_eq_true]
        exact exists_congr fun p => and_congr_right fun hp => by rw [hsame p hp]
      simp only [hany, List.any_cons, Bool.or_assoc]

/-- Drawing distinct on-grid pixels XORs exactly them. -/
theorem pixelAt_drawPixels (fb : Framebuffer) {qs : List (Nat × Nat)} (hnd : qs.Nodup) (hg : ∀ q ∈ qs, onGrid q = true)
    (y x : Nat) : pixelAt (drawPixels fb qs).1 y x = (pixelAt fb y x ^^ decide ((y, x) ∈ qs)) :=
  (drawPixels_acc qs (fb, false) hnd hg).1 y x

/-- The flag of a draw says whether some drawn pixel was on. -/
theorem drawPixels_flag (fb : Framebuffer) {qs : List (Nat × Nat)} (hnd : qs.Nodup) (hg : ∀ q ∈ qs, onGrid q = true) :
    (drawPixels fb qs).2 = qs.any fun q => pixelAt fb q.1 q.2 :=
  ((drawPixels_acc qs (fb, false) hnd hg).2).trans (Bool.false_or _)

/-! ## The bits of a sprite -/

theorem mem_spriteBits {columns : Nat} {rows : List Byte} {r c : Nat} :
    (r, c) ∈ spriteBits columns rows ↔ ∃ h : r < rows.length, c < columns ∧ rows[r].getLsbD (7 - c) = true := by
  simp only [spriteBits, List.mem_flatMap, List.mem_map, List.mem_filter, List.mem_range, Prod.mk.injEq, Prod.exists]
  constructor
  · rintro ⟨row, r', hmem, c', ⟨hc, hbit⟩, rfl, rfl⟩
    obtain ⟨hlt, hrow⟩ := List.mk_mem_zipIdx_iff_getElem?.1 hmem |> List.getElem?_eq_some_iff.1
    exact ⟨hlt, hc, by rw [hrow]; exact hbit⟩
  · rintro ⟨hlt, hc, hbit⟩
    exact ⟨rows[r], r, List.mk_mem_zipIdx_iff_getElem?.2 (List.getElem?_eq_getElem hlt), c, ⟨hc, hbit⟩, rfl, rfl⟩

/-- Row first, then column. -/
abbrev bitBefore (p q : Nat × Nat) : Prop := p.1 < q.1 ∨ (p.1 = q.1 ∧ p.2 < q.2)

/-- The bits stand in ascending order of row, then of column. -/
theorem spriteBits_sorted (columns : Nat) (rows : List Byte) : (spriteBits columns rows).Pairwise bitBefore := by
  unfold spriteBits
  rw [List.pairwise_flatMap]
  refine ⟨fun q _ => ?_, ?_⟩
  · rw [List.pairwise_map]
    exact (List.pairwise_lt_range.filter _).imp fun h => .inr ⟨rfl, h⟩
  · have hidx : (rows.zipIdx).Pairwise fun p q => p.2 < q.2 := by
      have h : (rows.zipIdx.map Prod.snd).Pairwise (· < ·) := by
        rw [List.zipIdx_map_snd]; exact List.pairwise_lt_range'
      exact List.pairwise_map.1 h
    refine hidx.imp fun {p q} hpq a ha b hb => ?_
    simp only [List.mem_map, List.mem_filter] at ha hb
    obtain ⟨c, _, rfl⟩ := ha
    obtain ⟨d, _, rfl⟩ := hb
    exact .inl hpq

theorem spriteBits_nodup (columns : Nat) (rows : List Byte) : (spriteBits columns rows).Nodup :=
  (spriteBits_sorted columns rows).imp fun {p q} h e => by subst e; rcases h with h | h <;> omega

/-- The pixels of a sprite at (ys, xs) are distinct. -/
theorem spritePixels_nodup (columns : Nat) (rows : List Byte) (ys xs : Nat) :
    ((spriteBits columns rows).map fun rc => (ys + rc.1, xs + rc.2)).Nodup :=
  (spriteBits_nodup columns rows).map fun p q h => by
    have h1 := congrArg Prod.fst h
    have h2 := congrArg Prod.snd h
    simp only at h1 h2
    exact Prod.ext (by omega) (by omega)

end Sys2Proof.Machine
end

