-- ==== Sys2Proof/Laws/Encoding.lean ====
section
/-! SUPPORT. The arithmetic of instruction words: each format and each field as a number, fields of formats, and a
word put together again from its fields. -/

namespace Sys2Proof

theorem append_toNat {m n : Nat} (a : BitVec m) (b : BitVec n) : (a ++ b).toNat = a.toNat * 2 ^ n + b.toNat := by
  rw [BitVec.toNat_append, ← Nat.shiftLeft_add_eq_or_of_lt b.isLt, Nat.shiftLeft_eq]

theorem ofReg_toNat (x : Reg) : (BitVec.ofNat 4 x.val).toNat = x.val := by simp

/-! ## Formats as numbers -/

theorem wordA_toNat (c : BitVec 4) (nnn : Addr) : (wordA c nnn).toNat = c.toNat * 0x1000 + nnn.toNat :=
  append_toNat c nnn

theorem wordR_toNat (c : BitVec 4) (x : Reg) (nn : Byte) :
    (wordR c x nn).toNat = c.toNat * 0x1000 + x.val * 0x100 + nn.toNat := by
  have h := append_toNat (c ++ BitVec.ofNat 4 x.val) nn
  have h' := append_toNat c (BitVec.ofNat 4 x.val)
  rw [ofReg_toNat] at h'
  rw [h'] at h
  exact h.trans (by omega)

theorem wordP_toNat (c : BitVec 4) (x y : Reg) (n : BitVec 4) :
    (wordP c x y n).toNat = c.toNat * 0x1000 + x.val * 0x100 + y.val * 0x10 + n.toNat := by
  have h := append_toNat ((c ++ BitVec.ofNat 4 x.val) ++ BitVec.ofNat 4 y.val) n
  have h' := append_toNat (c ++ BitVec.ofNat 4 x.val) (BitVec.ofNat 4 y.val)
  have h'' := append_toNat c (BitVec.ofNat 4 x.val)
  rw [ofReg_toNat] at h' h''
  rw [h''] at h'
  rw [h'] at h
  exact h.trans (by omega)

theorem wordOfBytes_toNat (hi lo : Byte) : (wordOfBytes hi lo).toNat = hi.toNat * 0x100 + lo.toNat :=
  append_toNat hi lo

/-! ## Fields as numbers -/

theorem opClass_toNat (op : Word) : (opClass op).toNat = op.toNat / 0x1000 := by
  simp [opClass, BitVec.extractLsb'_toNat, Nat.shiftRight_eq_div_pow]; omega

theorem fieldX_val (op : Word) : (fieldX op).val = op.toNat / 0x100 % 16 := by
  simp [fieldX, Nat.shiftRight_eq_div_pow]

theorem fieldY_val (op : Word) : (fieldY op).val = op.toNat / 0x10 % 16 := by
  simp [fieldY, Nat.shiftRight_eq_div_pow]

theorem fieldN_toNat (op : Word) : (fieldN op).toNat = op.toNat % 16 := by simp [fieldN]

theorem fieldNN_toNat (op : Word) : (fieldNN op).toNat = op.toNat % 0x100 := by simp [fieldNN]

theorem fieldNNN_toNat (op : Word) : (fieldNNN op).toNat = op.toNat % 0x1000 := by simp [fieldNNN]

theorem highByte_toNat (op : Word) : (highByte op).toNat = op.toNat / 0x100 := by
  simp [highByte, Nat.shiftRight_eq_div_pow]; omega

theorem lowByte_toNat (op : Word) : (lowByte op).toNat = op.toNat % 0x100 := by simp [lowByte]

/-! ## Fields of formats -/

@[simp] theorem opClass_wordA (c : BitVec 4) (nnn : Addr) : opClass (wordA c nnn) = c := by
  apply BitVec.eq_of_toNat_eq; rw [opClass_toNat, wordA_toNat]; omega

@[simp] theorem fieldNNN_wordA (c : BitVec 4) (nnn : Addr) : fieldNNN (wordA c nnn) = nnn := by
  apply BitVec.eq_of_toNat_eq; rw [fieldNNN_toNat, wordA_toNat]; omega

@[simp] theorem opClass_wordR (c : BitVec 4) (x : Reg) (nn : Byte) : opClass (wordR c x nn) = c := by
  apply BitVec.eq_of_toNat_eq; rw [opClass_toNat, wordR_toNat]; omega

@[simp] theorem fieldX_wordR (c : BitVec 4) (x : Reg) (nn : Byte) : fieldX (wordR c x nn) = x := by
  apply Fin.ext; rw [fieldX_val, wordR_toNat]; omega

@[simp] theorem fieldNN_wordR (c : BitVec 4) (x : Reg) (nn : Byte) : fieldNN (wordR c x nn) = nn := by
  apply BitVec.eq_of_toNat_eq; rw [fieldNN_toNat, wordR_toNat]; omega

@[simp] theorem opClass_wordP (c : BitVec 4) (x y : Reg) (n : BitVec 4) : opClass (wordP c x y n) = c := by
  apply BitVec.eq_of_toNat_eq; rw [opClass_toNat, wordP_toNat]; omega

@[simp] theorem fieldX_wordP (c : BitVec 4) (x y : Reg) (n : BitVec 4) : fieldX (wordP c x y n) = x := by
  apply Fin.ext; rw [fieldX_val, wordP_toNat]; omega

@[simp] theorem fieldY_wordP (c : BitVec 4) (x y : Reg) (n : BitVec 4) : fieldY (wordP c x y n) = y := by
  apply Fin.ext; rw [fieldY_val, wordP_toNat]; omega

@[simp] theorem fieldN_wordP (c : BitVec 4) (x y : Reg) (n : BitVec 4) : fieldN (wordP c x y n) = n := by
  apply BitVec.eq_of_toNat_eq; rw [fieldN_toNat, wordP_toNat]; omega

/-! ## A word from its fields -/

theorem word_eq_wordA (op : Word) : wordA (opClass op) (fieldNNN op) = op := by
  apply BitVec.eq_of_toNat_eq; rw [wordA_toNat, opClass_toNat, fieldNNN_toNat]; omega

theorem word_eq_wordR (op : Word) : wordR (opClass op) (fieldX op) (fieldNN op) = op := by
  apply BitVec.eq_of_toNat_eq; rw [wordR_toNat, opClass_toNat, fieldX_val, fieldNN_toNat]; omega

theorem word_eq_wordP (op : Word) : wordP (opClass op) (fieldX op) (fieldY op) (fieldN op) = op := by
  apply BitVec.eq_of_toNat_eq; rw [wordP_toNat, opClass_toNat, fieldX_val, fieldY_val, fieldN_toNat]; omega

@[simp] theorem wordOfBytes_high_low (op : Word) : wordOfBytes (highByte op) (lowByte op) = op := by
  apply BitVec.eq_of_toNat_eq; rw [wordOfBytes_toNat, highByte_toNat, lowByte_toNat]; omega

@[simp] theorem highByte_wordOfBytes (hi lo : Byte) : highByte (wordOfBytes hi lo) = hi := by
  apply BitVec.eq_of_toNat_eq; rw [highByte_toNat, wordOfBytes_toNat]; omega

@[simp] theorem lowByte_wordOfBytes (hi lo : Byte) : lowByte (wordOfBytes hi lo) = lo := by
  apply BitVec.eq_of_toNat_eq; rw [lowByte_toNat, wordOfBytes_toNat]; omega

/-! ## Formats from numbers -/

theorem wordA_eq_ofNat {c : BitVec 4} {nnn : Addr} {w : Nat} (h : c.toNat * 0x1000 + nnn.toNat = w) :
    wordA c nnn = BitVec.ofNat 16 w := by
  apply BitVec.eq_of_toNat_eq
  rw [wordA_toNat, h, BitVec.toNat_ofNat]; omega

theorem wordR_eq_ofNat {c : BitVec 4} {x : Reg} {nn : Byte} {w : Nat}
    (h : c.toNat * 0x1000 + x.val * 0x100 + nn.toNat = w) : wordR c x nn = BitVec.ofNat 16 w := by
  apply BitVec.eq_of_toNat_eq
  rw [wordR_toNat, h, BitVec.toNat_ofNat]; omega

theorem wordP_eq_ofNat {c : BitVec 4} {x y : Reg} {n : BitVec 4} {w : Nat}
    (h : c.toNat * 0x1000 + x.val * 0x100 + y.val * 0x10 + n.toNat = w) : wordP c x y n = BitVec.ofNat 16 w := by
  apply BitVec.eq_of_toNat_eq
  rw [wordP_toNat, h, BitVec.toNat_ofNat]; omega

/-! ## Masks of the opcode map -/

theorem wordA_mask (c : BitVec 4) (nnn : Addr) : wordA c nnn &&& 0xF000#16 = wordA c 0x000#12 := by
  have h : (c ++ nnn) &&& (0xF#4 ++ 0x000#12) = (c &&& 0xF#4) ++ (nnn &&& 0x000#12) := BitVec.and_append
  have hc : c &&& 0xF#4 = c := BitVec.and_allOnes
  rw [hc, BitVec.and_zero] at h
  exact h

theorem wordR_mask_class (c : BitVec 4) (x : Reg) (nn : Byte) : wordR c x nn &&& 0xF000#16 = wordA c 0x000#12 := by
  rw [← word_eq_wordA (wordR c x nn), opClass_wordR, wordA_mask]

theorem wordP_mask_class (c : BitVec 4) (x y : Reg) (n : BitVec 4) :
    wordP c x y n &&& 0xF000#16 = wordA c 0x000#12 := by
  rw [← word_eq_wordA (wordP c x y n), opClass_wordP, wordA_mask]

theorem wordR_mask (c : BitVec 4) (x : Reg) (nn : Byte) : wordR c x nn &&& 0xF0FF#16 = wordR c 0 nn := by
  have h : ((c ++ BitVec.ofNat 4 x.val) ++ nn) &&& ((0xF#4 ++ 0x0#4) ++ 0xFF#8)
      = ((c &&& 0xF#4) ++ (BitVec.ofNat 4 x.val &&& 0x0#4)) ++ (nn &&& 0xFF#8) := by
    rw [BitVec.and_append, BitVec.and_append]
  have hc : c &&& 0xF#4 = c := BitVec.and_allOnes
  have hn : nn &&& 0xFF#8 = nn := BitVec.and_allOnes
  rw [hc, hn, BitVec.and_zero] at h
  exact h

theorem wordP_mask (c : BitVec 4) (x y : Reg) (n : BitVec 4) : wordP c x y n &&& 0xF00F#16 = wordP c 0 0 n := by
  have h : (((c ++ BitVec.ofNat 4 x.val) ++ BitVec.ofNat 4 y.val) ++ n) &&& (((0xF#4 ++ 0x0#4) ++ 0x0#4) ++ 0xF#4)
      = (((c &&& 0xF#4) ++ (BitVec.ofNat 4 x.val &&& 0x0#4)) ++ (BitVec.ofNat 4 y.val &&& 0x0#4)) ++ (n &&& 0xF#4) := by
    rw [BitVec.and_append, BitVec.and_append, BitVec.and_append]
  have hc : c &&& 0xF#4 = c := BitVec.and_allOnes
  have hn : n &&& 0xF#4 = n := BitVec.and_allOnes
  rw [hc, hn, BitVec.and_zero, BitVec.and_zero] at h
  exact h

end Sys2Proof
end

