-- ==== Sys2Proof/Laws/Memory.lean ====
section
/-! SUPPORT. The laws of memory: what a read sees after a write, and that every memory operation keeps the canonical
form `Memory.wf`. -/

namespace Sys2Proof.Machine

/-- The half of the canonical form that reads rest on. -/
abbrev Memory.sorted (m : Memory) : Prop := m.Pairwise fun p q => p.1 < q.1

theorem Memory.wf.sorted {m : Memory} (h : Memory.wf m) : m.sorted := h.1

/-- An address below every listed one reads as unlisted. -/
theorem readByte_below {m : Memory} {a : Nat} (h : ∀ c ∈ m, a < c.1) : readByte m a = unlistedByte a := by
  cases m with
  | nil => rfl
  | cons c rest =>
    have hne : ¬ c.1 = a := fun e => by have := h c (by simp); omega
    have hr : readByte rest a = unlistedByte a := readByte_below fun d hd => h d (by simp [hd])
    simp [readByte, hne, hr]

theorem mem_consCell {a : Nat} {b : Byte} {m : Memory} {c : Host.Cell} (h : c ∈ consCell a b m) : c = (a, b) ∨ c ∈ m := by
  unfold consCell at h
  split at h
  · exact .inr h
  · simpa using h

/-- A read of a memory that starts at address a or above, through a cell put before it. -/
theorem readByte_consCell {m : Memory} {a : Nat} (b : Byte) (h : ∀ c ∈ m, a < c.1) (a' : Nat) :
    readByte (consCell a b m) a' = if a' = a then b else readByte m a' := by
  unfold consCell
  split
  · next hb =>
    split
    · next e => rw [e, readByte_below h, hb]
    · rfl
  · simp only [readByte, eq_comm]

theorem mem_writeByte {m : Memory} {a : Nat} {b : Byte} {c : Host.Cell} (h : c ∈ writeByte m a b) : c = (a, b) ∨ c ∈ m := by
  induction m with
  | nil => simpa using mem_consCell h
  | cons d rest ih =>
    unfold writeByte at h
    split at h
    · exact mem_consCell h
    · split at h
      · exact (mem_consCell h).imp_right fun hc => by simp [hc]
      · rcases List.mem_cons.1 h with rfl | hc
        · simp
        · exact (ih hc).imp_right fun hc => by simp [hc]

/-- A read sees the last write to its address, and no other write. -/
theorem readByte_writeByte {m : Memory} (hm : m.sorted) (a : Nat) (b : Byte) (a' : Nat) :
    readByte (writeByte m a b) a' = if a' = a then b else readByte m a' := by
  induction m with
  | nil => exact readByte_consCell b (by simp) a'
  | cons c rest ih =>
    obtain ⟨hc, hrest⟩ := List.pairwise_cons.1 hm
    unfold writeByte
    split
    · next hlt =>
      refine readByte_consCell b (fun d hd => ?_) a'
      rcases List.mem_cons.1 hd with rfl | hd
      · exact hlt
      · exact hlt.trans (hc d hd)
    · split
      · next heq =>
        rw [readByte_consCell b (fun d hd => heq ▸ hc d hd) a']
        by_cases e : a' = a
        · simp [e]
        · have : ¬ c.1 = a' := fun h => e (by omega)
          simp [e, readByte, this]
      · next hlt hne =>
        simp only [readByte, ih hrest]
        by_cases e : c.1 = a'
        · have : ¬ a' = a := by omega
          simp [e, this]
        · simp [e]

theorem consCell_sorted {m : Memory} (hm : m.sorted) {a : Nat} (b : Byte) (h : ∀ c ∈ m, a < c.1) :
    Memory.sorted (consCell a b m) := by
  unfold consCell
  split
  · exact hm
  · exact List.pairwise_cons.2 ⟨h, hm⟩

theorem writeByte_sorted {m : Memory} (hm : m.sorted) (a : Nat) (b : Byte) : Memory.sorted (writeByte m a b) := by
  induction m with
  | nil => exact consCell_sorted hm b (by simp)
  | cons c rest ih =>
    obtain ⟨hc, hrest⟩ := List.pairwise_cons.1 hm
    unfold writeByte
    split
    · next hlt =>
      refine consCell_sorted hm b fun d hd => ?_
      rcases List.mem_cons.1 hd with rfl | hd
      · exact hlt
      · exact hlt.trans (hc d hd)
    · split
      · next heq => exact consCell_sorted hrest b fun d hd => heq ▸ hc d hd
      · next hlt hne =>
        refine List.pairwise_cons.2 ⟨fun d hd => ?_, ih hrest⟩
        rcases mem_writeByte hd with rfl | hd
        · show c.1 < a; omega
        · exact hc d hd

theorem writeByte_ne_unlisted {m : Memory} (hm : ∀ c ∈ m, c.2 ≠ unlistedByte c.1) (a : Nat) (b : Byte) :
    ∀ c ∈ writeByte m a b, c.2 ≠ unlistedByte c.1 := by
  have cons : ∀ m' : Memory, (∀ c ∈ m', c.2 ≠ unlistedByte c.1) → ∀ c ∈ consCell a b m', c.2 ≠ unlistedByte c.1 := by
    intro m' h c hc
    unfold consCell at hc
    split at hc
    · exact h c hc
    · next hb =>
      rcases List.mem_cons.1 hc with rfl | hc
      · exact hb
      · exact h c hc
  induction m with
  | nil => exact cons [] hm
  | cons d rest ih =>
    have hrest : ∀ c ∈ rest, c.2 ≠ unlistedByte c.1 := fun c hc => hm c (by simp [hc])
    unfold writeByte
    split
    · exact cons _ hm
    · split
      · exact cons _ hrest
      · intro c hc
        rcases List.mem_cons.1 hc with rfl | hc
        · exact hm _ (by simp)
        · exact ih hrest c hc

/-! ## The canonical form is kept -/

theorem wf_nil : Memory.wf [] := by simp [Memory.wf]

/-- The memory of reset is in canonical form. -/
theorem wf_reset : Memory.wf State.reset.mem := wf_nil

theorem wf_writeByte {m : Memory} (hm : Memory.wf m) {a : Nat} (ha : a ≤ lastAddress) (b : Byte) :
    Memory.wf (writeByte m a b) := by
  refine ⟨writeByte_sorted hm.1 a b, fun c hc => ⟨?_, writeByte_ne_unlisted (fun c hc => (hm.2 c hc).2) a b c hc⟩⟩
  rcases mem_writeByte hc with rfl | hc
  · exact ha
  · exact (hm.2 c hc).1

theorem wf_writeBlock (vs : List Byte) : ∀ {m : Memory}, Memory.wf m → ∀ {b : Nat}, b + vs.length ≤ 4096 →
    Memory.wf (writeBlock m b vs) := by
  induction vs with
  | nil => intro m hm b _; exact hm
  | cons v vs ih =>
    intro m hm b hb
    simp only [List.length_cons] at hb
    exact ih (wf_writeByte hm (show b ≤ 0xFFF by omega) v) (by omega)

theorem wf_storeWord {m : Memory} (hm : Memory.wf m) {a : Nat} (ha : a ≤ 0xFFE) (op : Word) :
    Memory.wf (storeWord m a op) :=
  wf_writeByte (wf_writeByte hm (show a ≤ 0xFFF by omega) _) (show a + 1 ≤ 0xFFF by omega) _

theorem wf_load {s : State} (hm : Memory.wf s.mem) (image : List Byte) : Memory.wf (s.load image).1.mem := by
  unfold State.load
  split
  · exact hm
  · next h => exact wf_writeBlock image hm (show 0x200 + image.length ≤ 4096 by simp [progMax] at h; omega)

theorem wf_resetWith (p : Params) : Memory.wf (State.resetWith p).mem :=
  wf_writeBlock _ wf_nil (by simp)

/-! ## Reads after block writes -/

theorem writeBlock_sorted (vs : List Byte) : ∀ {m : Memory}, m.sorted → ∀ (b : Nat), Memory.sorted (writeBlock m b vs) := by
  induction vs with
  | nil => intro m hm b; exact hm
  | cons v vs ih => intro m hm b; exact ih (writeByte_sorted hm b v) (b + 1)

/-- A read below or above a written block sees what was there. -/
theorem readByte_writeBlock_outside (vs : List Byte) : ∀ {m : Memory}, m.sorted → ∀ {b a : Nat},
    (a < b ∨ b + vs.length ≤ a) → readByte (writeBlock m b vs) a = readByte m a := by
  induction vs with
  | nil => intros; rfl
  | cons v vs ih =>
    intro m hm b a h
    simp only [List.length_cons] at h
    rw [writeBlock, ih (writeByte_sorted hm b v) (by omega), readByte_writeByte hm]
    have : a ≠ b := by omega
    simp [this]

/-- A read inside a written block sees the block's byte. -/
theorem readByte_writeBlock_inside (vs : List Byte) : ∀ {m : Memory}, m.sorted → ∀ {b k : Nat} (h : k < vs.length),
    readByte (writeBlock m b vs) (b + k) = vs[k] := by
  induction vs with
  | nil => intro m _ b k h; simp at h
  | cons v vs ih =>
    intro m hm b k h
    cases k with
    | zero =>
      rw [writeBlock, readByte_writeBlock_outside vs (writeByte_sorted hm b v) (by omega), readByte_writeByte hm]
      simp
    | succ k =>
      have := ih (writeByte_sorted hm b v) (b := b + 1) (k := k) (by simpa using h)
      rw [writeBlock, show b + (k + 1) = b + 1 + k by omega, this]
      simp

theorem readByte_storeWord {m : Memory} (hm : m.sorted) (a : Nat) (op : Word) (a' : Nat) :
    readByte (storeWord m a op) a' =
      if a' = a + 1 then lowByte op else if a' = a then highByte op else readByte m a' := by
  unfold storeWord
  rw [readByte_writeByte (writeByte_sorted hm a _), readByte_writeByte hm]

@[simp] theorem readBlock_length (m : Memory) (b n : Nat) : (readBlock m b n).length = n := by simp [readBlock]

@[simp] theorem readBlock_getElem (m : Memory) (b n k : Nat) (h : k < (readBlock m b n).length) :
    (readBlock m b n)[k] = readByte m (b + k) := by simp [readBlock]

/-! ## The block check -/

theorem blockAccepted_iff (b n : Nat) : blockAccepted b n = true ↔ n = 0 ∨ b + n ≤ 4096 := by
  simp only [blockAccepted, Bool.or_eq_true, beq_iff_eq, decide_eq_true_eq, lastAddress]; omega

/-! ## Memory after INIT -/

theorem unlistedByte_of_ge {a : Nat} (h : 80 ≤ a) : unlistedByte a = 0x00#8 := by
  have hl : fontTable.length = 80 := by decide
  simp [unlistedByte, List.getD_eq_getElem?_getD, List.getElem?_eq_none (hl ▸ h : fontTable.length ≤ a)]

theorem readByte_resetWith_font (p : Params) (a : Fin 80) : readByte (State.resetWith p).mem a.val = p.font[a] := by
  have hl : p.font.toList.length = 80 := Vector.length_toList
  have h := readByte_writeBlock_inside p.font.toList wf_nil.sorted (b := 0) (k := a.val) (by omega)
  rw [Nat.zero_add] at h
  exact h.trans (Vector.getElem_toList ..)

theorem readByte_resetWith_zero (p : Params) {a : Nat} (h : 80 ≤ a) : readByte (State.resetWith p).mem a = 0x00#8 := by
  have hl : p.font.toList.length = 80 := Vector.length_toList
  exact (readByte_writeBlock_outside p.font.toList wf_nil.sorted (b := 0) (by omega)).trans (unlistedByte_of_ge h)

end Sys2Proof.Machine
end

