-- ==== Sys2Proof/Laws/State.lean ====
section
/-! SUPPORT. One lemma per field per update of State, true by rfl, and what a register read sees after each update. -/

namespace Sys2Proof.Machine

/-! ## writeV -/

@[simp] theorem State.writeV_V (s : State) (x : Reg) (b : Byte) : (s.writeV x b).V = s.V.set x b := rfl
@[simp] theorem State.writeV_I (s : State) (x : Reg) (b : Byte) : (s.writeV x b).I = s.I := rfl
@[simp] theorem State.writeV_pc (s : State) (x : Reg) (b : Byte) : (s.writeV x b).pc = s.pc := rfl
@[simp] theorem State.writeV_sp (s : State) (x : Reg) (b : Byte) : (s.writeV x b).sp = s.sp := rfl
@[simp] theorem State.writeV_stack (s : State) (x : Reg) (b : Byte) : (s.writeV x b).stack = s.stack := rfl
@[simp] theorem State.writeV_DT (s : State) (x : Reg) (b : Byte) : (s.writeV x b).DT = s.DT := rfl
@[simp] theorem State.writeV_ST (s : State) (x : Reg) (b : Byte) : (s.writeV x b).ST = s.ST := rfl
@[simp] theorem State.writeV_mem (s : State) (x : Reg) (b : Byte) : (s.writeV x b).mem = s.mem := rfl
@[simp] theorem State.writeV_fb (s : State) (x : Reg) (b : Byte) : (s.writeV x b).fb = s.fb := rfl
@[simp] theorem State.writeV_redraw (s : State) (x : Reg) (b : Byte) : (s.writeV x b).redraw = s.redraw := rfl
@[simp] theorem State.writeV_key (s : State) (x : Reg) (b : Byte) : (s.writeV x b).key = s.key := rfl
@[simp] theorem State.writeV_fault (s : State) (x : Reg) (b : Byte) : (s.writeV x b).fault = s.fault := rfl
@[simp] theorem State.writeV_draws (s : State) (x : Reg) (b : Byte) : (s.writeV x b).draws = s.draws := rfl

/-! ## writeI -/

@[simp] theorem State.writeI_V (s : State) (w : Word) : (s.writeI w).V = s.V := rfl
@[simp] theorem State.writeI_I (s : State) (w : Word) : (s.writeI w).I = w := rfl
@[simp] theorem State.writeI_pc (s : State) (w : Word) : (s.writeI w).pc = s.pc := rfl
@[simp] theorem State.writeI_sp (s : State) (w : Word) : (s.writeI w).sp = s.sp := rfl
@[simp] theorem State.writeI_stack (s : State) (w : Word) : (s.writeI w).stack = s.stack := rfl
@[simp] theorem State.writeI_DT (s : State) (w : Word) : (s.writeI w).DT = s.DT := rfl
@[simp] theorem State.writeI_ST (s : State) (w : Word) : (s.writeI w).ST = s.ST := rfl
@[simp] theorem State.writeI_mem (s : State) (w : Word) : (s.writeI w).mem = s.mem := rfl
@[simp] theorem State.writeI_fb (s : State) (w : Word) : (s.writeI w).fb = s.fb := rfl
@[simp] theorem State.writeI_redraw (s : State) (w : Word) : (s.writeI w).redraw = s.redraw := rfl
@[simp] theorem State.writeI_key (s : State) (w : Word) : (s.writeI w).key = s.key := rfl
@[simp] theorem State.writeI_fault (s : State) (w : Word) : (s.writeI w).fault = s.fault := rfl
@[simp] theorem State.writeI_draws (s : State) (w : Word) : (s.writeI w).draws = s.draws := rfl
@[simp] theorem State.writeI_readV (s : State) (w : Word) (r : Reg) : (s.writeI w).readV r = s.readV r := rfl

/-! ## writeMem -/

@[simp] theorem State.writeMem_V (s : State) (m : Memory) : (s.writeMem m).V = s.V := rfl
@[simp] theorem State.writeMem_I (s : State) (m : Memory) : (s.writeMem m).I = s.I := rfl
@[simp] theorem State.writeMem_pc (s : State) (m : Memory) : (s.writeMem m).pc = s.pc := rfl
@[simp] theorem State.writeMem_sp (s : State) (m : Memory) : (s.writeMem m).sp = s.sp := rfl
@[simp] theorem State.writeMem_stack (s : State) (m : Memory) : (s.writeMem m).stack = s.stack := rfl
@[simp] theorem State.writeMem_DT (s : State) (m : Memory) : (s.writeMem m).DT = s.DT := rfl
@[simp] theorem State.writeMem_ST (s : State) (m : Memory) : (s.writeMem m).ST = s.ST := rfl
@[simp] theorem State.writeMem_mem (s : State) (m : Memory) : (s.writeMem m).mem = m := rfl
@[simp] theorem State.writeMem_fb (s : State) (m : Memory) : (s.writeMem m).fb = s.fb := rfl
@[simp] theorem State.writeMem_redraw (s : State) (m : Memory) : (s.writeMem m).redraw = s.redraw := rfl
@[simp] theorem State.writeMem_key (s : State) (m : Memory) : (s.writeMem m).key = s.key := rfl
@[simp] theorem State.writeMem_fault (s : State) (m : Memory) : (s.writeMem m).fault = s.fault := rfl
@[simp] theorem State.writeMem_draws (s : State) (m : Memory) : (s.writeMem m).draws = s.draws := rfl
@[simp] theorem State.writeMem_readV (s : State) (m : Memory) (r : Reg) : (s.writeMem m).readV r = s.readV r := rfl

/-! ## writeDT -/

@[simp] theorem State.writeDT_V (s : State) (b : Byte) : (s.writeDT b).V = s.V := rfl
@[simp] theorem State.writeDT_I (s : State) (b : Byte) : (s.writeDT b).I = s.I := rfl
@[simp] theorem State.writeDT_pc (s : State) (b : Byte) : (s.writeDT b).pc = s.pc := rfl
@[simp] theorem State.writeDT_sp (s : State) (b : Byte) : (s.writeDT b).sp = s.sp := rfl
@[simp] theorem State.writeDT_stack (s : State) (b : Byte) : (s.writeDT b).stack = s.stack := rfl
@[simp] theorem State.writeDT_DT (s : State) (b : Byte) : (s.writeDT b).DT = b := rfl
@[simp] theorem State.writeDT_ST (s : State) (b : Byte) : (s.writeDT b).ST = s.ST := rfl
@[simp] theorem State.writeDT_mem (s : State) (b : Byte) : (s.writeDT b).mem = s.mem := rfl
@[simp] theorem State.writeDT_fb (s : State) (b : Byte) : (s.writeDT b).fb = s.fb := rfl
@[simp] theorem State.writeDT_redraw (s : State) (b : Byte) : (s.writeDT b).redraw = s.redraw := rfl
@[simp] theorem State.writeDT_key (s : State) (b : Byte) : (s.writeDT b).key = s.key := rfl
@[simp] theorem State.writeDT_fault (s : State) (b : Byte) : (s.writeDT b).fault = s.fault := rfl
@[simp] theorem State.writeDT_draws (s : State) (b : Byte) : (s.writeDT b).draws = s.draws := rfl
@[simp] theorem State.writeDT_readV (s : State) (b : Byte) (r : Reg) : (s.writeDT b).readV r = s.readV r := rfl

/-! ## writeST -/

@[simp] theorem State.writeST_V (s : State) (b : Byte) : (s.writeST b).V = s.V := rfl
@[simp] theorem State.writeST_I (s : State) (b : Byte) : (s.writeST b).I = s.I := rfl
@[simp] theorem State.writeST_pc (s : State) (b : Byte) : (s.writeST b).pc = s.pc := rfl
@[simp] theorem State.writeST_sp (s : State) (b : Byte) : (s.writeST b).sp = s.sp := rfl
@[simp] theorem State.writeST_stack (s : State) (b : Byte) : (s.writeST b).stack = s.stack := rfl
@[simp] theorem State.writeST_DT (s : State) (b : Byte) : (s.writeST b).DT = s.DT := rfl
@[simp] theorem State.writeST_ST (s : State) (b : Byte) : (s.writeST b).ST = b := rfl
@[simp] theorem State.writeST_mem (s : State) (b : Byte) : (s.writeST b).mem = s.mem := rfl
@[simp] theorem State.writeST_fb (s : State) (b : Byte) : (s.writeST b).fb = s.fb := rfl
@[simp] theorem State.writeST_redraw (s : State) (b : Byte) : (s.writeST b).redraw = s.redraw := rfl
@[simp] theorem State.writeST_key (s : State) (b : Byte) : (s.writeST b).key = s.key := rfl
@[simp] theorem State.writeST_fault (s : State) (b : Byte) : (s.writeST b).fault = s.fault := rfl
@[simp] theorem State.writeST_draws (s : State) (b : Byte) : (s.writeST b).draws = s.draws := rfl
@[simp] theorem State.writeST_readV (s : State) (b : Byte) (r : Reg) : (s.writeST b).readV r = s.readV r := rfl

/-! ## showFb -/

@[simp] theorem State.showFb_V (s : State) (p : Framebuffer) : (s.showFb p).V = s.V := rfl
@[simp] theorem State.showFb_I (s : State) (p : Framebuffer) : (s.showFb p).I = s.I := rfl
@[simp] theorem State.showFb_pc (s : State) (p : Framebuffer) : (s.showFb p).pc = s.pc := rfl
@[simp] theorem State.showFb_sp (s : State) (p : Framebuffer) : (s.showFb p).sp = s.sp := rfl
@[simp] theorem State.showFb_stack (s : State) (p : Framebuffer) : (s.showFb p).stack = s.stack := rfl
@[simp] theorem State.showFb_DT (s : State) (p : Framebuffer) : (s.showFb p).DT = s.DT := rfl
@[simp] theorem State.showFb_ST (s : State) (p : Framebuffer) : (s.showFb p).ST = s.ST := rfl
@[simp] theorem State.showFb_mem (s : State) (p : Framebuffer) : (s.showFb p).mem = s.mem := rfl
@[simp] theorem State.showFb_fb (s : State) (p : Framebuffer) : (s.showFb p).fb = p := rfl
@[simp] theorem State.showFb_redraw (s : State) (p : Framebuffer) : (s.showFb p).redraw = true := rfl
@[simp] theorem State.showFb_key (s : State) (p : Framebuffer) : (s.showFb p).key = s.key := rfl
@[simp] theorem State.showFb_fault (s : State) (p : Framebuffer) : (s.showFb p).fault = s.fault := rfl
@[simp] theorem State.showFb_draws (s : State) (p : Framebuffer) : (s.showFb p).draws = s.draws := rfl
@[simp] theorem State.showFb_readV (s : State) (p : Framebuffer) (r : Reg) : (s.showFb p).readV r = s.readV r := rfl

/-! ## jumpTo -/

@[simp] theorem State.jumpTo_V (s : State) (w : Word) : (s.jumpTo w).V = s.V := rfl
@[simp] theorem State.jumpTo_I (s : State) (w : Word) : (s.jumpTo w).I = s.I := rfl
@[simp] theorem State.jumpTo_pc (s : State) (w : Word) : (s.jumpTo w).pc = w := rfl
@[simp] theorem State.jumpTo_sp (s : State) (w : Word) : (s.jumpTo w).sp = s.sp := rfl
@[simp] theorem State.jumpTo_stack (s : State) (w : Word) : (s.jumpTo w).stack = s.stack := rfl
@[simp] theorem State.jumpTo_DT (s : State) (w : Word) : (s.jumpTo w).DT = s.DT := rfl
@[simp] theorem State.jumpTo_ST (s : State) (w : Word) : (s.jumpTo w).ST = s.ST := rfl
@[simp] theorem State.jumpTo_mem (s : State) (w : Word) : (s.jumpTo w).mem = s.mem := rfl
@[simp] theorem State.jumpTo_fb (s : State) (w : Word) : (s.jumpTo w).fb = s.fb := rfl
@[simp] theorem State.jumpTo_redraw (s : State) (w : Word) : (s.jumpTo w).redraw = s.redraw := rfl
@[simp] theorem State.jumpTo_key (s : State) (w : Word) : (s.jumpTo w).key = s.key := rfl
@[simp] theorem State.jumpTo_fault (s : State) (w : Word) : (s.jumpTo w).fault = s.fault := rfl
@[simp] theorem State.jumpTo_draws (s : State) (w : Word) : (s.jumpTo w).draws = s.draws := rfl
@[simp] theorem State.jumpTo_readV (s : State) (w : Word) (r : Reg) : (s.jumpTo w).readV r = s.readV r := rfl

/-! ## advance -/

@[simp] theorem State.advance_V (s : State) : (s.advance).V = s.V := rfl
@[simp] theorem State.advance_I (s : State) : (s.advance).I = s.I := rfl
@[simp] theorem State.advance_pc (s : State) : (s.advance).pc = s.pc + 2#16 := rfl
@[simp] theorem State.advance_sp (s : State) : (s.advance).sp = s.sp := rfl
@[simp] theorem State.advance_stack (s : State) : (s.advance).stack = s.stack := rfl
@[simp] theorem State.advance_DT (s : State) : (s.advance).DT = s.DT := rfl
@[simp] theorem State.advance_ST (s : State) : (s.advance).ST = s.ST := rfl
@[simp] theorem State.advance_mem (s : State) : (s.advance).mem = s.mem := rfl
@[simp] theorem State.advance_fb (s : State) : (s.advance).fb = s.fb := rfl
@[simp] theorem State.advance_redraw (s : State) : (s.advance).redraw = s.redraw := rfl
@[simp] theorem State.advance_key (s : State) : (s.advance).key = s.key := rfl
@[simp] theorem State.advance_fault (s : State) : (s.advance).fault = s.fault := rfl
@[simp] theorem State.advance_draws (s : State) : (s.advance).draws = s.draws := rfl
@[simp] theorem State.advance_readV (s : State) (r : Reg) : (s.advance).readV r = s.readV r := rfl

/-! ## push -/

@[simp] theorem State.push_V (s : State) (h : s.sp.val < 16) : (s.push h).V = s.V := rfl
@[simp] theorem State.push_I (s : State) (h : s.sp.val < 16) : (s.push h).I = s.I := rfl
@[simp] theorem State.push_pc (s : State) (h : s.sp.val < 16) : (s.push h).pc = s.pc := rfl
@[simp] theorem State.push_sp (s : State) (h : s.sp.val < 16) : (s.push h).sp = ⟨s.sp.val + 1, by omega⟩ := rfl
@[simp] theorem State.push_stack (s : State) (h : s.sp.val < 16) : (s.push h).stack = s.stack.set s.sp.val s.pc := rfl
@[simp] theorem State.push_DT (s : State) (h : s.sp.val < 16) : (s.push h).DT = s.DT := rfl
@[simp] theorem State.push_ST (s : State) (h : s.sp.val < 16) : (s.push h).ST = s.ST := rfl
@[simp] theorem State.push_mem (s : State) (h : s.sp.val < 16) : (s.push h).mem = s.mem := rfl
@[simp] theorem State.push_fb (s : State) (h : s.sp.val < 16) : (s.push h).fb = s.fb := rfl
@[simp] theorem State.push_redraw (s : State) (h : s.sp.val < 16) : (s.push h).redraw = s.redraw := rfl
@[simp] theorem State.push_key (s : State) (h : s.sp.val < 16) : (s.push h).key = s.key := rfl
@[simp] theorem State.push_fault (s : State) (h : s.sp.val < 16) : (s.push h).fault = s.fault := rfl
@[simp] theorem State.push_draws (s : State) (h : s.sp.val < 16) : (s.push h).draws = s.draws := rfl
@[simp] theorem State.push_readV (s : State) (h : s.sp.val < 16) (r : Reg) : (s.push h).readV r = s.readV r := rfl

/-! ## pop -/

@[simp] theorem State.pop_V (s : State) : (s.pop).V = s.V := rfl
@[simp] theorem State.pop_I (s : State) : (s.pop).I = s.I := rfl
@[simp] theorem State.pop_pc (s : State) : (s.pop).pc = s.pc := rfl
@[simp] theorem State.pop_sp (s : State) : (s.pop).sp = ⟨s.sp.val - 1, by omega⟩ := rfl
@[simp] theorem State.pop_stack (s : State) : (s.pop).stack = s.stack := rfl
@[simp] theorem State.pop_DT (s : State) : (s.pop).DT = s.DT := rfl
@[simp] theorem State.pop_ST (s : State) : (s.pop).ST = s.ST := rfl
@[simp] theorem State.pop_mem (s : State) : (s.pop).mem = s.mem := rfl
@[simp] theorem State.pop_fb (s : State) : (s.pop).fb = s.fb := rfl
@[simp] theorem State.pop_redraw (s : State) : (s.pop).redraw = s.redraw := rfl
@[simp] theorem State.pop_key (s : State) : (s.pop).key = s.key := rfl
@[simp] theorem State.pop_fault (s : State) : (s.pop).fault = s.fault := rfl
@[simp] theorem State.pop_draws (s : State) : (s.pop).draws = s.draws := rfl
@[simp] theorem State.pop_readV (s : State) (r : Reg) : (s.pop).readV r = s.readV r := rfl

/-! ## bumpI -/

@[simp] theorem State.bumpI_V (s : State) (x : Reg) : (s.bumpI x).V = s.V := rfl
@[simp] theorem State.bumpI_I (s : State) (x : Reg) : (s.bumpI x).I = s.I + BitVec.ofNat 16 (x.val + 1) := rfl
@[simp] theorem State.bumpI_pc (s : State) (x : Reg) : (s.bumpI x).pc = s.pc := rfl
@[simp] theorem State.bumpI_sp (s : State) (x : Reg) : (s.bumpI x).sp = s.sp := rfl
@[simp] theorem State.bumpI_stack (s : State) (x : Reg) : (s.bumpI x).stack = s.stack := rfl
@[simp] theorem State.bumpI_DT (s : State) (x : Reg) : (s.bumpI x).DT = s.DT := rfl
@[simp] theorem State.bumpI_ST (s : State) (x : Reg) : (s.bumpI x).ST = s.ST := rfl
@[simp] theorem State.bumpI_mem (s : State) (x : Reg) : (s.bumpI x).mem = s.mem := rfl
@[simp] theorem State.bumpI_fb (s : State) (x : Reg) : (s.bumpI x).fb = s.fb := rfl
@[simp] theorem State.bumpI_redraw (s : State) (x : Reg) : (s.bumpI x).redraw = s.redraw := rfl
@[simp] theorem State.bumpI_key (s : State) (x : Reg) : (s.bumpI x).key = s.key := rfl
@[simp] theorem State.bumpI_fault (s : State) (x : Reg) : (s.bumpI x).fault = s.fault := rfl
@[simp] theorem State.bumpI_draws (s : State) (x : Reg) : (s.bumpI x).draws = s.draws := rfl
@[simp] theorem State.bumpI_readV (s : State) (x : Reg) (r : Reg) : (s.bumpI x).readV r = s.readV r := rfl

/-! ## drawByte -/

@[simp] theorem State.drawByte_V (s : State) : (s.drawByte.2).V = s.V := rfl
@[simp] theorem State.drawByte_I (s : State) : (s.drawByte.2).I = s.I := rfl
@[simp] theorem State.drawByte_pc (s : State) : (s.drawByte.2).pc = s.pc := rfl
@[simp] theorem State.drawByte_sp (s : State) : (s.drawByte.2).sp = s.sp := rfl
@[simp] theorem State.drawByte_stack (s : State) : (s.drawByte.2).stack = s.stack := rfl
@[simp] theorem State.drawByte_DT (s : State) : (s.drawByte.2).DT = s.DT := rfl
@[simp] theorem State.drawByte_ST (s : State) : (s.drawByte.2).ST = s.ST := rfl
@[simp] theorem State.drawByte_mem (s : State) : (s.drawByte.2).mem = s.mem := rfl
@[simp] theorem State.drawByte_fb (s : State) : (s.drawByte.2).fb = s.fb := rfl
@[simp] theorem State.drawByte_redraw (s : State) : (s.drawByte.2).redraw = s.redraw := rfl
@[simp] theorem State.drawByte_key (s : State) : (s.drawByte.2).key = s.key := rfl
@[simp] theorem State.drawByte_fault (s : State) : (s.drawByte.2).fault = s.fault := rfl
@[simp] theorem State.drawByte_draws (s : State) : (s.drawByte.2).draws = s.draws + 1 := rfl
@[simp] theorem State.drawByte_readV (s : State) (r : Reg) : (s.drawByte.2).readV r = s.readV r := rfl

/-! ## takeFault -/

@[simp] theorem State.takeFault_V (s : State) (c : Fault) (op i0 i1 : Word) : (s.takeFault c op i0 i1).V = s.V := rfl
@[simp] theorem State.takeFault_I (s : State) (c : Fault) (op i0 i1 : Word) : (s.takeFault c op i0 i1).I = s.I := rfl
@[simp] theorem State.takeFault_pc (s : State) (c : Fault) (op i0 i1 : Word) : (s.takeFault c op i0 i1).pc = s.pc := rfl
@[simp] theorem State.takeFault_sp (s : State) (c : Fault) (op i0 i1 : Word) : (s.takeFault c op i0 i1).sp = s.sp := rfl
@[simp] theorem State.takeFault_stack (s : State) (c : Fault) (op i0 i1 : Word) : (s.takeFault c op i0 i1).stack = s.stack := rfl
@[simp] theorem State.takeFault_DT (s : State) (c : Fault) (op i0 i1 : Word) : (s.takeFault c op i0 i1).DT = s.DT := rfl
@[simp] theorem State.takeFault_ST (s : State) (c : Fault) (op i0 i1 : Word) : (s.takeFault c op i0 i1).ST = s.ST := rfl
@[simp] theorem State.takeFault_mem (s : State) (c : Fault) (op i0 i1 : Word) : (s.takeFault c op i0 i1).mem = s.mem := rfl
@[simp] theorem State.takeFault_fb (s : State) (c : Fault) (op i0 i1 : Word) : (s.takeFault c op i0 i1).fb = s.fb := rfl
@[simp] theorem State.takeFault_redraw (s : State) (c : Fault) (op i0 i1 : Word) : (s.takeFault c op i0 i1).redraw = s.redraw := rfl
@[simp] theorem State.takeFault_key (s : State) (c : Fault) (op i0 i1 : Word) : (s.takeFault c op i0 i1).key = s.key := rfl
@[simp] theorem State.takeFault_fault (s : State) (c : Fault) (op i0 i1 : Word) : (s.takeFault c op i0 i1).fault = some { cause := c.code, pc := s.pc, opcode := op, info0 := i0, info1 := i1 } := rfl
@[simp] theorem State.takeFault_draws (s : State) (c : Fault) (op i0 i1 : Word) : (s.takeFault c op i0 i1).draws = s.draws := rfl
@[simp] theorem State.takeFault_readV (s : State) (c : Fault) (op i0 i1 : Word) (r : Reg) : (s.takeFault c op i0 i1).readV r = s.readV r := rfl

/-! ## tick -/

@[simp] theorem State.tick_V (s : State) : (s.tick.1).V = s.V := rfl
@[simp] theorem State.tick_I (s : State) : (s.tick.1).I = s.I := rfl
@[simp] theorem State.tick_pc (s : State) : (s.tick.1).pc = s.pc := rfl
@[simp] theorem State.tick_sp (s : State) : (s.tick.1).sp = s.sp := rfl
@[simp] theorem State.tick_stack (s : State) : (s.tick.1).stack = s.stack := rfl
@[simp] theorem State.tick_DT (s : State) : (s.tick.1).DT = countDown s.DT := rfl
@[simp] theorem State.tick_ST (s : State) : (s.tick.1).ST = countDown s.ST := rfl
@[simp] theorem State.tick_mem (s : State) : (s.tick.1).mem = s.mem := rfl
@[simp] theorem State.tick_fb (s : State) : (s.tick.1).fb = s.fb := rfl
@[simp] theorem State.tick_redraw (s : State) : (s.tick.1).redraw = s.redraw := rfl
@[simp] theorem State.tick_key (s : State) : (s.tick.1).key = s.key := rfl
@[simp] theorem State.tick_fault (s : State) : (s.tick.1).fault = s.fault := rfl
@[simp] theorem State.tick_draws (s : State) : (s.tick.1).draws = s.draws := rfl
@[simp] theorem State.tick_readV (s : State) (r : Reg) : (s.tick.1).readV r = s.readV r := rfl

/-! ## Registers -/

/-- A register read sees the last write to it. -/
@[simp] theorem State.writeV_readV (s : State) (x r : Reg) (b : Byte) :
    (s.writeV x b).readV r = if r = x then b else s.readV r := by
  have h : (s.V.set x.val b)[r.val] = if x.val = r.val then b else s.V[r.val] := Vector.getElem_set ..
  by_cases hr : r = x
  · subst hr; simp [State.readV, State.writeV]
  · have hv : ¬ x.val = r.val := fun e => hr (Fin.ext e.symm)
    rw [if_neg hv] at h
    rw [if_neg hr]
    exact h

/-- VF holds the bit it was given; the other registers are unchanged. -/
@[simp] theorem State.writeFlag_readV (s : State) (b : Bool) (r : Reg) :
    (s.writeFlag b).readV r = if r = 15 then (if b then 0x01#8 else 0x00#8) else s.readV r :=
  State.writeV_readV s 15 r _

@[simp] theorem State.writeFlag_I (s : State) (b : Bool) : (s.writeFlag b).I = s.I := rfl
@[simp] theorem State.writeFlag_pc (s : State) (b : Bool) : (s.writeFlag b).pc = s.pc := rfl
@[simp] theorem State.writeFlag_sp (s : State) (b : Bool) : (s.writeFlag b).sp = s.sp := rfl
@[simp] theorem State.writeFlag_stack (s : State) (b : Bool) : (s.writeFlag b).stack = s.stack := rfl
@[simp] theorem State.writeFlag_DT (s : State) (b : Bool) : (s.writeFlag b).DT = s.DT := rfl
@[simp] theorem State.writeFlag_ST (s : State) (b : Bool) : (s.writeFlag b).ST = s.ST := rfl
@[simp] theorem State.writeFlag_mem (s : State) (b : Bool) : (s.writeFlag b).mem = s.mem := rfl
@[simp] theorem State.writeFlag_fb (s : State) (b : Bool) : (s.writeFlag b).fb = s.fb := rfl
@[simp] theorem State.writeFlag_redraw (s : State) (b : Bool) : (s.writeFlag b).redraw = s.redraw := rfl
@[simp] theorem State.writeFlag_key (s : State) (b : Bool) : (s.writeFlag b).key = s.key := rfl
@[simp] theorem State.writeFlag_fault (s : State) (b : Bool) : (s.writeFlag b).fault = s.fault := rfl
@[simp] theorem State.writeFlag_draws (s : State) (b : Bool) : (s.writeFlag b).draws = s.draws := rfl

/-! ## Skips -/

@[simp] theorem State.skipIf_V (s : State) (b : Bool) : (s.skipIf b).V = s.V := by cases b <;> rfl
@[simp] theorem State.skipIf_I (s : State) (b : Bool) : (s.skipIf b).I = s.I := by cases b <;> rfl
@[simp] theorem State.skipIf_sp (s : State) (b : Bool) : (s.skipIf b).sp = s.sp := by cases b <;> rfl
@[simp] theorem State.skipIf_stack (s : State) (b : Bool) : (s.skipIf b).stack = s.stack := by cases b <;> rfl
@[simp] theorem State.skipIf_DT (s : State) (b : Bool) : (s.skipIf b).DT = s.DT := by cases b <;> rfl
@[simp] theorem State.skipIf_ST (s : State) (b : Bool) : (s.skipIf b).ST = s.ST := by cases b <;> rfl
@[simp] theorem State.skipIf_mem (s : State) (b : Bool) : (s.skipIf b).mem = s.mem := by cases b <;> rfl
@[simp] theorem State.skipIf_fb (s : State) (b : Bool) : (s.skipIf b).fb = s.fb := by cases b <;> rfl
@[simp] theorem State.skipIf_redraw (s : State) (b : Bool) : (s.skipIf b).redraw = s.redraw := by cases b <;> rfl
@[simp] theorem State.skipIf_key (s : State) (b : Bool) : (s.skipIf b).key = s.key := by cases b <;> rfl
@[simp] theorem State.skipIf_fault (s : State) (b : Bool) : (s.skipIf b).fault = s.fault := by cases b <;> rfl
@[simp] theorem State.skipIf_draws (s : State) (b : Bool) : (s.skipIf b).draws = s.draws := by cases b <;> rfl
@[simp] theorem State.skipIf_readV (s : State) (b : Bool) (r : Reg) : (s.skipIf b).readV r = s.readV r := by
  cases b <;> rfl
@[simp] theorem State.skipIf_pc (s : State) (b : Bool) : (s.skipIf b).pc = if b then s.pc + 4#16 else s.pc + 2#16 := by
  cases b <;> rfl

/-! ## Two states with the same reads of every register have the same registers -/

theorem State.V_ext {s t : State} (h : ∀ r, t.readV r = s.readV r) : t.V = s.V := by
  apply Vector.ext
  intro i hi
  exact h ⟨i, hi⟩

end Sys2Proof.Machine
end

