-- ==== Sys2Proof/Laws/Operands.lean ====
section
/-! SUPPORT. What each operand form and each shared register operation gives. -/

namespace Sys2Proof.Machine

theorem addressOf_toNat (nnn : Addr) : (addressOf nnn).toNat = nnn.toNat := by
  simp [addressOf]; omega

theorem addressOf_eq_ofNat (nnn : Addr) : addressOf nnn = BitVec.ofNat 16 nnn.toNat := by
  apply BitVec.eq_of_toNat_eq; rw [addressOf_toNat]; simp; omega

theorem State.wideV_toNat (s : State) (x : Reg) : (s.wideV x).toNat = (s.readV x).toNat := by
  simp [State.wideV]; omega

theorem State.wideV_eq_ofNat (s : State) (x : Reg) : s.wideV x = BitVec.ofNat 16 (s.readV x).toNat := by
  apply BitVec.eq_of_toNat_eq; rw [State.wideV_toNat]; simp; omega

theorem glyphAddress_toNat (v : Byte) : (glyphAddress v).toNat = v.toNat * 5 := by
  simp [glyphAddress]; omega

/-- I moves past the block of x + 1 bytes, without wrap while the block is in memory. -/
theorem State.bumpI_toNat {s : State} {x : Reg} (h : s.I.toNat + x.val ≤ 0xFFF) :
    (s.bumpI x).I.toNat = s.I.toNat + x.val + 1 := by
  simp [BitVec.toNat_add]; omega

/-- A key number in range reads its line. -/
theorem State.keyLine?_of_lt {s : State} {x k : Reg} (h : k.val = (s.readV x).toNat) : s.keyLine? x = some s.key[k] := by
  have hl : (s.readV x).toNat < 16 := by omega
  simp [State.keyLine?, ← h]

/-- A key number out of range has no line. -/
theorem State.keyLine?_of_ge {s : State} {x : Reg} (h : (s.readV x).toNat > 15) : s.keyLine? x = none := by
  simp [State.keyLine?]; omega

theorem lowestPressed_eq_some {key : Vector Bool 16} {k : Reg} (hk : key[k] = true)
    (h : ∀ j : Reg, j < k → key[j] = false) : lowestPressed key = some k := by
  unfold lowestPressed
  rw [List.find?_eq_some_iff_getElem]
  exact ⟨hk, k.val, by simp, by simp, fun j hj => by simpa using h ⟨j, by omega⟩ hj⟩

theorem lowestPressed_eq_none {key : Vector Bool 16} (h : ∀ j : Reg, key[j] = false) : lowestPressed key = none := by
  unfold lowestPressed
  rw [List.find?_eq_none]
  exact fun j _ => by simpa using h j

/-! ## The registers V0..Vx -/

theorem mem_regsUpTo {x r : Reg} : r ∈ regsUpTo x ↔ r ≤ x := by simp [regsUpTo]

theorem regsUpTo_eq (x : Reg) : regsUpTo x = (List.finRange 16).take (x.val + 1) := by revert x; decide

@[simp] theorem regsUpTo_length (x : Reg) : (regsUpTo x).length = x.val + 1 := by revert x; decide

theorem regsUpTo_getElem (x : Reg) (k : Nat) (h : k < (regsUpTo x).length) :
    (regsUpTo x)[k] = ⟨k, by rw [regsUpTo_length] at h; omega⟩ := by
  simp [regsUpTo_eq]

/-- The bytes FX55 stores: byte k is V[k]. -/
theorem storedBytes_getElem (s : State) (x : Reg) (k : Nat) (h : k < ((regsUpTo x).map s.readV).length) :
    ((regsUpTo x).map s.readV)[k] = s.readV ⟨k, by simp at h; omega⟩ := by
  simp [regsUpTo_getElem]

/-- Loading registers writes the listed ones from memory, and nothing else. -/
theorem State.loadRegs_spec (base : Nat) (rs : List Reg) : ∀ s : State,
    (∀ r, (s.loadRegs base rs).readV r = if r ∈ rs then readByte s.mem (base + r.val) else s.readV r) ∧
      s.loadRegs base rs = { s with V := (s.loadRegs base rs).V } := by
  induction rs with
  | nil => intro s; simp [State.loadRegs]
  | cons q rs ih =>
    intro s
    obtain ⟨hr, hs⟩ := ih (s.writeV q (readByte s.mem (base + q.val)))
    refine ⟨fun r => ?_, hs⟩
    have h := hr r
    simp only [State.writeV_mem, State.writeV_readV] at h
    show (State.loadRegs (s.writeV q (readByte s.mem (base + q.val))) base rs).readV r = _
    rw [h]
    by_cases hm : r ∈ rs
    · simp [hm]
    · by_cases hq : r = q
      · simp [hq]
      · simp [hm, hq]

theorem State.loadRegs_readV (s : State) (base : Nat) (x r : Reg) :
    (s.loadRegs base (regsUpTo x)).readV r = if r ≤ x then readByte s.mem (base + r.val) else s.readV r := by
  rw [(State.loadRegs_spec base _ s).1 r]
  simp [mem_regsUpTo]

@[simp] theorem State.loadRegs_I (s : State) (base : Nat) (rs : List Reg) : (s.loadRegs base rs).I = s.I := by
  rw [(State.loadRegs_spec base rs s).2]
@[simp] theorem State.loadRegs_pc (s : State) (base : Nat) (rs : List Reg) : (s.loadRegs base rs).pc = s.pc := by
  rw [(State.loadRegs_spec base rs s).2]
@[simp] theorem State.loadRegs_sp (s : State) (base : Nat) (rs : List Reg) : (s.loadRegs base rs).sp = s.sp := by
  rw [(State.loadRegs_spec base rs s).2]
@[simp] theorem State.loadRegs_stack (s : State) (base : Nat) (rs : List Reg) : (s.loadRegs base rs).stack = s.stack := by
  rw [(State.loadRegs_spec base rs s).2]
@[simp] theorem State.loadRegs_DT (s : State) (base : Nat) (rs : List Reg) : (s.loadRegs base rs).DT = s.DT := by
  rw [(State.loadRegs_spec base rs s).2]
@[simp] theorem State.loadRegs_ST (s : State) (base : Nat) (rs : List Reg) : (s.loadRegs base rs).ST = s.ST := by
  rw [(State.loadRegs_spec base rs s).2]
@[simp] theorem State.loadRegs_mem (s : State) (base : Nat) (rs : List Reg) : (s.loadRegs base rs).mem = s.mem := by
  rw [(State.loadRegs_spec base rs s).2]
@[simp] theorem State.loadRegs_fb (s : State) (base : Nat) (rs : List Reg) : (s.loadRegs base rs).fb = s.fb := by
  rw [(State.loadRegs_spec base rs s).2]
@[simp] theorem State.loadRegs_redraw (s : State) (base : Nat) (rs : List Reg) : (s.loadRegs base rs).redraw = s.redraw := by
  rw [(State.loadRegs_spec base rs s).2]
@[simp] theorem State.loadRegs_key (s : State) (base : Nat) (rs : List Reg) : (s.loadRegs base rs).key = s.key := by
  rw [(State.loadRegs_spec base rs s).2]
@[simp] theorem State.loadRegs_fault (s : State) (base : Nat) (rs : List Reg) : (s.loadRegs base rs).fault = s.fault := by
  rw [(State.loadRegs_spec base rs s).2]
@[simp] theorem State.loadRegs_draws (s : State) (base : Nat) (rs : List Reg) : (s.loadRegs base rs).draws = s.draws := by
  rw [(State.loadRegs_spec base rs s).2]

/-! ## ALU operations with a flag -/

/-- Neither order of an ALU operation changes anything but VF and the result register. -/
theorem aluWithFlag_eq (o : VfOperandOrder) (f : Byte → Byte → Bool) (v : Byte → Byte → Byte) (x y : Reg) (s : State) :
    aluWithFlag o f v x y s = { s with V := (aluWithFlag o f v x y s).V } := by
  cases o <;> rfl

theorem aluWithFlag_readV_other (o : VfOperandOrder) (f : Byte → Byte → Bool) (v : Byte → Byte → Byte) (x y : Reg)
    (s : State) {r : Reg} (hx : r ≠ x) (hf : r ≠ 15) : (aluWithFlag o f v x y s).readV r = s.readV r := by
  cases o <;> simp [aluWithFlag, hx, hf]

/-- The sequential order (R9): VF first, then the result from the registers as they then stand. -/
theorem aluWithFlag_sequential (f : Byte → Byte → Bool) (v : Byte → Byte → Byte) (x y : Reg) (s : State) :
    aluWithFlag .sequential f v x y s =
      (s.writeFlag (f (s.readV x) (s.readV y))).writeV x
        (v ((s.writeFlag (f (s.readV x) (s.readV y))).readV x) ((s.writeFlag (f (s.readV x) (s.readV y))).readV y)) := rfl

/-- The latched order: the result from the old registers, then VF. -/
theorem aluWithFlag_latched (f : Byte → Byte → Bool) (v : Byte → Byte → Byte) (x y : Reg) (s : State) :
    aluWithFlag .latched f v x y s =
      (s.writeV x (v (s.readV x) (s.readV y))).writeFlag (f (s.readV x) (s.readV y)) := rfl

/-! ## Timers -/

theorem countDown_toNat (b : Byte) : (countDown b).toNat = b.toNat - 1 := by
  unfold countDown
  split <;> bv_omega

end Sys2Proof.Machine
end

