-- ==== Sys2Proof/Laws/Frame.lean ====
section
/-! SUPPORT. How frames and encodings are shown, and the cycle of a STEP case by case. -/

namespace Sys2Proof.Machine

/-- A frame, piece by piece. -/
theorem Frame.intro {regs : List Reg} {parts : List Part} {s t : State}
    (h : ∀ r, r ∉ regs → t.readV r = s.readV r)
    (I : .I ∉ parts → t.I = s.I) (sp : .sp ∉ parts → t.sp = s.sp) (stack : .stack ∉ parts → t.stack = s.stack)
    (DT : .DT ∉ parts → t.DT = s.DT) (ST : .ST ∉ parts → t.ST = s.ST)
    (mem : .mem ∉ parts → ∀ a, readByte t.mem a = readByte s.mem a)
    (fb : .fb ∉ parts → t.fb = s.fb) (redraw : .redraw ∉ parts → t.redraw = s.redraw)
    (key : .key ∉ parts → t.key = s.key) (fault : .fault ∉ parts → t.fault = s.fault)
    (draws : .draws ∉ parts → t.draws = s.draws) : Frame regs parts s t :=
  ⟨h, fun p hp => by cases p <;> simp only [Part.Kept] <;> simp_all⟩

/-! ## The cycle -/

/-- The word at pc is the fetched word. -/
theorem State.wordAtPc_eq (s : State) :
    s.wordAtPc = (wordOfBytes (readByte s.mem s.pc.toNat) (readByte s.mem (s.pc.toNat + 1))).toNat := by
  rw [wordOfBytes_toNat]; rfl

theorem State.wordAtPc_lt (s : State) : s.wordAtPc < 65536 := by
  rw [State.wordAtPc_eq]; exact (wordOfBytes _ _).isLt

theorem fetch_of_le {s : State} (h : s.pc.toNat ≤ 0xFFE) : fetch s = .ok (BitVec.ofNat 16 s.wordAtPc) := by
  rw [State.wordAtPc_eq]; simp [fetch, h]

theorem fetch_of_gt {s : State} (h : s.pc.toNat > 0xFFE) :
    fetch s = .error (if s.pc.toNat > 0xFFF then s.pc else s.pc + 1#16) := by
  simp [fetch, Nat.not_le.2 h]

theorem cycle_of_latched {s : State} (run : Instr → State → Result) {r : FaultRecord} (h : s.fault = some r) :
    cycle run s = .next s := by
  simp [cycle, h]

/-- Everything a cycle can do, its guards included. -/
theorem cycle_cases (run : Instr → State → Result) (s : State) :
    (s.fault ≠ none ∧ cycle run s = .next s) ∨
    (s.fault = none ∧ s.pc.toNat > 0xFFE ∧
      cycle run s = .next (s.takeFault .fetchOutOfRange 0x0000#16
        (if s.pc.toNat > 0xFFF then s.pc else s.pc + 1#16) 0#16)) ∨
    (s.fault = none ∧ s.pc.toNat ≤ 0xFFE ∧ decodeWord (BitVec.ofNat 16 s.wordAtPc) = none ∧
      cycle run s = .next (s.takeFault .decodeFault (BitVec.ofNat 16 s.wordAtPc) 0#16 0#16)) ∨
    (∃ i, s.fault = none ∧ s.pc.toNat ≤ 0xFFE ∧ decodeWord (BitVec.ofNat 16 s.wordAtPc) = some i ∧
      cycle run s = run i s) := by
  cases hf : s.fault with
  | some r => exact .inl ⟨by simp, cycle_of_latched run hf⟩
  | none =>
    by_cases hpc : s.pc.toNat ≤ 0xFFE
    · cases hd : decodeWord (BitVec.ofNat 16 s.wordAtPc) with
      | none => exact .inr (.inr (.inl ⟨rfl, hpc, rfl, by simp [cycle, hf, fetch_of_le hpc, hd]⟩))
      | some i => exact .inr (.inr (.inr ⟨i, rfl, hpc, rfl, by simp [cycle, hf, fetch_of_le hpc, hd]⟩))
    · have hgt : s.pc.toNat > 0xFFE := Nat.not_le.1 hpc
      exact .inr (.inl ⟨rfl, hgt, by simp only [cycle, hf, fetch_of_gt hgt]⟩)

/-! ## The placed word is the fetched word -/

/-- After `placeWord` the next STEP fetches exactly that word, from a clear latch. -/
theorem State.placeWord_fetch {s : State} (hm : s.mem.sorted) (op : Word) :
    (s.placeWord op).fault = none ∧ fetch (s.placeWord op) = .ok op := by
  refine ⟨rfl, ?_⟩
  have key : ∀ a : Word, a.toNat ≤ 0xFFE →
      fetch { s with mem := storeWord s.mem a.toNat op, pc := a, fault := none } = .ok op := by
    intro a ha
    simp [fetch, ha, readByte_storeWord hm]
  unfold State.placeWord
  split
  · next h => exact key _ h
  · exact key _ (by decide)

/-- `withFetchWord` runs the decoded instruction. -/
theorem step_withFetchWord {s : State} (hm : s.mem.sorted) {w : Nat} {i : Instr}
    (h : decodeWord (BitVec.ofNat 16 w) = some i) (hw : w < 2 ^ 16) :
    step (s.withFetchWord 16 w) = exec i (s.withFetchWord 16 w) := by
  obtain ⟨hf, hfe⟩ := State.placeWord_fetch hm (BitVec.ofNat 16 w)
  simp only [State.withFetchWord, Nat.mod_eq_of_lt hw, step, cycle, hf, hfe, h]

end Sys2Proof.Machine
end

