-- ==== Sys2Proof/Laws/Drw.lean ====
section
/-! SUPPORT. What DRW does under any parameter values, in the terms of Safety.lean: the bits of the sprite, the pixels it
covers, and its three outcomes. -/

namespace Sys2Proof.Machine

/-- A rejected block takes MEMORY_OUT_OF_RANGE. -/
theorem raiseMemory_eq (i : Instr) (s : State) :
    raiseMemory i s = .next (s.latched 5 (encode i).toNat (max s.I.toNat 0x1000) 0) := by
  simp [raiseMemory, raiseFault, State.takeFault, State.latched, Fault.code, lowestRejected]

theorem blockAccepted_of_le {s : State} {n : Nat} (h : n = 0 ∨ s.I.toNat + n - 1 ≤ 0xFFF) :
    blockAccepted s.base n = true :=
  (blockAccepted_iff _ _).2 (by simp only [State.base]; omega)

theorem blockAccepted_of_gt {s : State} {n : Nat} (h0 : n ≠ 0) (h : s.I.toNat + n - 1 > 0xFFF) :
    blockAccepted s.base n = false := by
  rw [Bool.eq_false_iff]
  intro e
  have := (blockAccepted_iff _ _).1 e
  simp only [State.base] at this
  omega

/-- The bits of the drawn rows are those of `spriteBit`. -/
theorem mem_spriteBits_readBlock (s : State) (columns n r c : Nat) :
    (r, c) ∈ spriteBits columns (readBlock s.mem s.base n) ↔ s.spriteBit columns n r c = true := by
  rw [mem_spriteBits]
  simp only [State.spriteBit, Bool.and_eq_true, decide_eq_true_eq, readBlock_length, readBlock_getElem, State.base]
  constructor
  · rintro ⟨hr, hc, hb⟩; exact ⟨⟨hr, hc⟩, hb⟩
  · rintro ⟨⟨hr, hc⟩, hb⟩; exact ⟨hr, hc, hb⟩

/-- The pixels (row, column) DRW draws, before the grid is looked at. -/
abbrev drwPixels (p : Params) (x y : Reg) (n : Nat) (s : State) : List (Nat × Nat) :=
  (spriteBits (rowColumns p.spriteRowWidth) (readBlock s.mem s.base n)).map
    fun rc => ((s.readV y).toNat + rc.1, (s.readV x).toNat + rc.2)

theorem mem_drwPixels (p : Params) (x y : Reg) (n : Nat) (s : State) (row col : Nat) :
    (row, col) ∈ drwPixels p x y n s ↔ s.spriteCovers (rowColumns p.spriteRowWidth) x y n row col = true := by
  simp only [drwPixels, List.mem_map, Prod.mk.injEq, Prod.exists, mem_spriteBits_readBlock, State.spriteCovers,
    Bool.and_eq_true, decide_eq_true_eq]
  constructor
  · rintro ⟨r, c, hb, rfl, rfl⟩
    simpa using hb
  · rintro ⟨⟨hy, hx⟩, hb⟩
    exact ⟨_, _, hb, by omega, by omega⟩

theorem drwPixels_nodup (p : Params) (x y : Reg) (n : Nat) (s : State) : (drwPixels p x y n s).Nodup :=
  spritePixels_nodup ..

/-- The memory check comes first. -/
theorem drwWith_rejected (p : Params) (x y : Reg) {n : Nat} {s : State} (h0 : n ≠ 0)
    (h : s.I.toNat + n - 1 > 0xFFF) :
    drwWith p x y n s = .next (s.latched 5 (encode (.drw x y n)).toNat (max s.I.toNat 0x1000) 0) := by
  simp [drwWith, blockAccepted_of_gt h0 h, raiseMemory_eq]

/-- The state of a completed draw: the on-grid pixels are XORed in, then VF, redraw and pc are written. -/
abbrev drawnState (p : Params) (x y : Reg) (n : Nat) (s : State) : State :=
  let d := drawPixels s.fb ((drwPixels p x y n s).filter onGrid)
  ((s.showFb d.1).writeFlag d.2).advance

theorem drwWith_draws {p : Params} {x y : Reg} {n : Nat} {s : State} (h : n = 0 ∨ s.I.toNat + n - 1 ≤ 0xFFF)
    (hp : p.offscreenPolicy = .clip ∨ ∀ r c, s.offGridBit (rowColumns p.spriteRowWidth) x y n r c = false) :
    drwWith p x y n s = .next (drawnState p x y n s) := by
  simp only [drwWith, blockAccepted_of_le h, if_true]
  split
  · next q hpol hfind =>
    exfalso
    rcases hp with hp | hp
    · rw [hp] at hpol; simp at hpol
    · have hmem := List.mem_of_find?_eq_some hfind
      have hoff : (!onGrid q) = true := by simpa using List.find?_some hfind
      simp only [List.mem_map, Prod.exists] at hmem
      obtain ⟨r, c, hrc, rfl⟩ := hmem
      have hb := (mem_spriteBits_readBlock s _ n r c).1 hrc
      have := hp r c
      simp only [State.offGridBit, hb, Bool.true_and, Bool.not_eq_false', Bool.and_eq_true, decide_eq_true_eq] at this
      simp [onGrid, fbHeight, fbWidth] at hoff
      omega
  · rfl

/-- The screen check: the first off-grid bit, row first and then column, is reported. -/
theorem drwWith_offGrid {p : Params} {x y : Reg} {n : Nat} {s : State} (h : n = 0 ∨ s.I.toNat + n - 1 ≤ 0xFFF)
    (hp : p.offscreenPolicy = .fault) {r c : Nat}
    (hrc : s.offGridBit (rowColumns p.spriteRowWidth) x y n r c = true)
    (hfirst : ∀ r' c', s.offGridBit (rowColumns p.spriteRowWidth) x y n r' c' = true → r < r' ∨ (r = r' ∧ c ≤ c')) :
    drwWith p x y n s =
      .next (s.latched 7 (encode (.drw x y n)).toNat ((s.readV x).toNat + c) ((s.readV y).toNat + r)) := by
  have hoff : ∀ r' c', s.offGridBit (rowColumns p.spriteRowWidth) x y n r' c' = true ↔
      (r', c') ∈ spriteBits (rowColumns p.spriteRowWidth) (readBlock s.mem s.base n) ∧
        onGrid ((s.readV y).toNat + r', (s.readV x).toNat + c') = false := by
    intro r' c'
    simp only [State.offGridBit, mem_spriteBits_readBlock, Bool.and_eq_true, Bool.not_eq_true', onGrid]
    refine and_congr_right fun _ => ?_
    simp only [Bool.and_eq_false_iff, decide_eq_false_iff_not, fbHeight, fbWidth]
    omega
  have hfind : (drwPixels p x y n s).find? (fun q => !onGrid q) = some ((s.readV y).toNat + r, (s.readV x).toNat + c) := by
    rw [List.find?_map]
    have : (spriteBits (rowColumns p.spriteRowWidth) (readBlock s.mem s.base n)).find?
        ((fun q => !onGrid q) ∘ fun rc => ((s.readV y).toNat + rc.1, (s.readV x).toNat + rc.2)) = some (r, c) := by
      obtain ⟨hm, hg⟩ := (hoff r c).1 hrc
      cases hf : (spriteBits (rowColumns p.spriteRowWidth) (readBlock s.mem s.base n)).find?
          ((fun q => !onGrid q) ∘ fun rc => ((s.readV y).toNat + rc.1, (s.readV x).toNat + rc.2)) with
      | none =>
        have := List.find?_eq_none.1 hf (r, c) hm
        simp [hg] at this
      | some q =>
        obtain ⟨r', c'⟩ := q
        have hq : onGrid ((s.readV y).toNat + r', (s.readV x).toNat + c') = false := by
          simpa using List.find?_some hf
        have hle := hfirst r' c' ((hoff r' c').2 ⟨List.mem_of_find?_eq_some hf, hq⟩)
        obtain ⟨-, as, bs, hsplit, hbefore⟩ := List.find?_eq_some_iff_append.1 hf
        have hsorted := spriteBits_sorted (rowColumns p.spriteRowWidth) (readBlock s.mem s.base n)
        rw [hsplit] at hsorted hm
        rcases List.mem_append.1 hm with ha | hb
        · have := hbefore (r, c) ha
          simp [hg] at this
        · rcases List.mem_cons.1 hb with hb | hb
          · rw [hb]
          · have := (List.pairwise_cons.1 (List.pairwise_append.1 hsorted).2.1).1 (r, c) hb
            simp only [bitBefore] at this
            omega
    rw [this]; rfl
  simp only [drwWith, blockAccepted_of_le h, if_true, hp, hfind]
  simp [raiseFault, State.takeFault, State.latched, Fault.code]

/-- What a completed draw leaves. -/
theorem drawnState_spec (p : Params) (x y : Reg) (n : Nat) (s : State) :
    (∀ row col, row < 32 → col < 64 → pixelAt (drawnState p x y n s).fb row col =
      (pixelAt s.fb row col ^^ s.spriteCovers (rowColumns p.spriteRowWidth) x y n row col)) ∧
    ((drawnState p x y n s).readV 15 = 0x01#8 ↔ ∃ row col, row < 32 ∧ col < 64 ∧
      s.spriteCovers (rowColumns p.spriteRowWidth) x y n row col = true ∧ pixelAt s.fb row col = true) ∧
    ((drawnState p x y n s).readV 15 = 0x00#8 ∨ (drawnState p x y n s).readV 15 = 0x01#8) ∧
    (drawnState p x y n s).redraw = true ∧ (drawnState p x y n s).pc = s.pc + 2#16 ∧
    Frame [15] [.fb, .redraw] s (drawnState p x y n s) := by
  have hnd : ((drwPixels p x y n s).filter onGrid).Nodup := (drwPixels_nodup p x y n s).filter _
  have hg : ∀ q ∈ (drwPixels p x y n s).filter onGrid, onGrid q = true := fun q hq => (List.mem_filter.1 hq).2
  refine ⟨fun row col hr hc => ?_, ?_, ?_, rfl, rfl, ?_⟩
  · show pixelAt (drawPixels s.fb _).1 row col = _
    rw [pixelAt_drawPixels _ hnd hg]
    congr 1
    rw [Bool.eq_iff_iff, decide_eq_true_iff, List.mem_filter, mem_drwPixels]
    simp [onGrid, hr, hc]
  · have hflag : (drawnState p x y n s).readV 15 =
        if (drawPixels s.fb ((drwPixels p x y n s).filter onGrid)).2 then 0x01#8 else 0x00#8 := by
      simp [drawnState]
    rw [hflag, drawPixels_flag _ hnd hg]
    have hone : ∀ b : Bool, ((if b then 0x01#8 else 0x00#8) = 0x01#8) ↔ b = true := by decide
    rw [hone, List.any_eq_true]
    constructor
    · rintro ⟨⟨row, col⟩, hq, hpix⟩
      obtain ⟨hm, hgrid⟩ := List.mem_filter.1 hq
      simp only [onGrid, Bool.and_eq_true, decide_eq_true_eq] at hgrid
      exact ⟨row, col, hgrid.1, hgrid.2, (mem_drwPixels ..).1 hm, hpix⟩
    · rintro ⟨row, col, hr, hc, hcov, hpix⟩
      refine ⟨(row, col), List.mem_filter.2 ⟨(mem_drwPixels ..).2 hcov, ?_⟩, hpix⟩
      simp [onGrid, hr, hc]
  · have hflag : (drawnState p x y n s).readV 15 =
        if (drawPixels s.fb ((drwPixels p x y n s).filter onGrid)).2 then 0x01#8 else 0x00#8 := by
      simp [drawnState]
    rw [hflag]
    split <;> simp
  · apply Frame.intro <;> simp_all

end Sys2Proof.Machine
end

