-- ==== Sys2Proof/Laws/Exec.lean ====
section
/-! SUPPORT. Said once: what any instruction can do, under any parameter values. It takes a fault, or it completes. -/

namespace Sys2Proof.Machine

/-- What an instruction that takes no fault leaves of the things no operand names. -/
structure Completes (s t : State) : Prop where
  fault : t.fault = s.fault
  key : t.key = s.key
  redraw : t.redraw = s.redraw ∨ t.redraw = true
  memory : Memory.wf s.mem → Memory.wf t.mem
  bounds : s.pc.toNat ≤ 0xFFE → (∀ k : Fin 16, s.stack[k].toNat ≤ 0xFFE) →
    t.pc.toNat ≤ 0x10FE ∧ ∀ k : Fin 16, t.stack[k].toNat ≤ 0xFFE

/-- An instruction that goes on to one of the next instructions and touches neither memory nor stack completes. -/
theorem Completes.goesOn {s t : State} (fault : t.fault = s.fault) (key : t.key = s.key)
    (redraw : t.redraw = s.redraw ∨ t.redraw = true) (mem : t.mem = s.mem) (stack : t.stack = s.stack)
    (pc : t.pc = s.pc ∨ t.pc = s.pc + 2#16 ∨ t.pc = s.pc + 4#16) : Completes s t := by
  refine ⟨fault, key, redraw, by rw [mem]; exact id, fun hpc hst => ⟨?_, by rw [stack]; exact hst⟩⟩
  rcases pc with h | h | h <;> rw [h] <;> bv_omega

theorem completes_skipIf (s : State) (b : Bool) : Completes s (s.skipIf b) := by
  cases b <;> exact .goesOn rfl rfl (.inl rfl) rfl rfl (by simp [State.skipIf])

/-- A block that is accepted is stored inside memory. -/
theorem completes_store {s : State} {vs : List Byte} (h : blockAccepted s.base vs.length = true) :
    Completes s (s.writeMem (writeBlock s.mem s.base vs)).advance := by
  refine ⟨rfl, rfl, .inl rfl, fun hm => ?_, fun hpc hst => ⟨?_, hst⟩⟩
  · by_cases h0 : vs.length = 0
    · rw [List.length_eq_zero_iff.1 h0]; exact hm
    · exact wf_writeBlock vs hm (((blockAccepted_iff _ _).1 h).resolve_left h0)
  · simp; bv_omega

/-- Every instruction takes a fault, naming its own word, or completes. -/
theorem execWith_cases (p : Params) (i : Instr) (s : State) :
    (∃ c a b, execWith p i s = .next (s.takeFault c (encode i) a b)) ∨
      ∃ t, execWith p i s = .next t ∧ Completes s t := by
  cases i with
  | drw x y n =>
    simp only [execWith, drwWith]
    split
    · split
      · exact .inl ⟨_, _, _, rfl⟩
      · exact .inr ⟨_, rfl, .goesOn (by simp) (by simp) (by simp) (by simp) (by simp) (by simp)⟩
    · exact .inl ⟨_, _, _, rfl⟩
  | ret =>
    simp only [execWith, exec, execRet]
    split
    · refine .inr ⟨_, rfl, rfl, rfl, .inl rfl, id, fun hpc hst => ⟨?_, hst⟩⟩
      have := hst ⟨s.sp.val - 1, by omega⟩
      simp only [Fin.getElem_fin] at this
      simp [State.top]
      omega
    · exact .inl ⟨_, _, _, rfl⟩
  | call nnn =>
    simp only [execWith, exec, execCall]
    split
    · refine .inr ⟨_, rfl, rfl, rfl, .inl rfl, id, fun hpc hst => ⟨?_, fun k => ?_⟩⟩
      · simp [addressOf_toNat]; omega
      · simp only [State.push, State.jumpTo, Fin.getElem_fin, Vector.getElem_set]
        split
        · exact hpc
        · exact hst k
    · exact .inl ⟨_, _, _, rfl⟩
  | jp nnn =>
    refine .inr ⟨_, rfl, rfl, rfl, .inl rfl, id, fun hpc hst => ⟨?_, hst⟩⟩
    simp [addressOf_toNat]; omega
  | jpV0 nnn =>
    refine .inr ⟨_, rfl, rfl, rfl, .inl rfl, id, fun hpc hst => ⟨?_, hst⟩⟩
    have := addressOf_toNat nnn
    have := State.wideV_toNat s 0
    simp; omega
  | seImm _ _ | sneImm _ _ | seReg _ _ | sneReg _ _ => exact .inr ⟨_, rfl, completes_skipIf ..⟩
  | skp x | sknp x =>
    simp only [execWith, exec, execSkp, execSknp]
    split
    · exact .inr ⟨_, rfl, completes_skipIf ..⟩
    · exact .inl ⟨_, _, _, rfl⟩
  | ldBVx x =>
    simp only [execWith, exec, execLdBVx]
    split
    · next h => exact .inr ⟨_, rfl, completes_store (by simpa [decimalDigits] using h)⟩
    · exact .inl ⟨_, _, _, rfl⟩
  | ldMemVx x =>
    simp only [execWith, exec, execLdMemVx]
    split
    · next h =>
      obtain ⟨hf, hk, hr, hm, hb⟩ := completes_store (s := s) (vs := (regsUpTo x).map s.readV) (by simpa using h)
      exact .inr ⟨_, rfl, hf, hk, hr, hm, hb⟩
    · exact .inl ⟨_, _, _, rfl⟩
  | ldVxMem x =>
    simp only [execWith, exec, execLdVxMem]
    split
    · refine .inr ⟨_, rfl, .goesOn ?_ ?_ (.inl ?_) ?_ ?_ (.inr (.inl ?_))⟩ <;> simp [State.bumpI]
    · exact .inl ⟨_, _, _, rfl⟩
  | ldVxK x =>
    simp only [execWith, exec, execLdVxK]
    split <;> exact .inr ⟨_, rfl, .goesOn (by simp) (by simp) (by simp) (by simp) (by simp) (by simp)⟩
  | addReg x y | sub x y | shr x y | subn x y | shl x y =>
    refine .inr ⟨_, rfl, ?_⟩
    rw [aluWithFlag_eq]
    exact .goesOn rfl rfl (.inl rfl) rfl rfl (.inr (.inl rfl))
  | _ => exact .inr ⟨_, rfl, .goesOn (by rfl) (by rfl) (by first | exact .inl rfl | exact .inr rfl) (by rfl) (by rfl)
      (.inr (.inl rfl))⟩

/-! ## Who writes the timers (R30) -/

theorem skipIf_timers (s : State) (b : Bool) : (s.skipIf b).DT = s.DT ∧ (s.skipIf b).ST = s.ST := by
  cases b <;> exact ⟨rfl, rfl⟩

/-- Only LD DT, Vx writes DT, and only LD ST, Vx writes ST. -/
theorem execWith_timers {p : Params} {i : Instr} {s t : State} (h : execWith p i s = .next t) :
    ((∀ x, i ≠ .ldDtVx x) → t.DT = s.DT) ∧ ((∀ x, i ≠ .ldStVx x) → t.ST = s.ST) := by
  cases i with
  | ldDtVx x => cases h; exact ⟨fun hn => absurd rfl (hn x), fun _ => rfl⟩
  | ldStVx x => cases h; exact ⟨fun _ => rfl, fun hn => absurd rfl (hn x)⟩
  | drw x y n =>
    simp only [execWith, drwWith] at h
    split at h
    · split at h <;> cases h <;> simp [State.takeFault]
    · cases h; simp [State.takeFault]
  | ret =>
    simp only [execWith, exec, execRet] at h
    split at h <;> cases h <;> exact ⟨fun _ => rfl, fun _ => rfl⟩
  | call nnn =>
    simp only [execWith, exec, execCall] at h
    split at h <;> cases h <;> exact ⟨fun _ => rfl, fun _ => rfl⟩
  | seImm _ _ | sneImm _ _ | seReg _ _ | sneReg _ _ =>
    cases h; exact ⟨fun _ => (skipIf_timers ..).1, fun _ => (skipIf_timers ..).2⟩
  | skp x | sknp x =>
    simp only [execWith, exec, execSkp, execSknp] at h
    split at h <;> cases h
    · exact ⟨fun _ => (skipIf_timers ..).1, fun _ => (skipIf_timers ..).2⟩
    · exact ⟨fun _ => rfl, fun _ => rfl⟩
  | ldBVx x =>
    simp only [execWith, exec, execLdBVx] at h
    split at h <;> cases h <;> exact ⟨fun _ => rfl, fun _ => rfl⟩
  | ldMemVx x =>
    simp only [execWith, exec, execLdMemVx] at h
    split at h <;> cases h <;> exact ⟨fun _ => rfl, fun _ => rfl⟩
  | ldVxMem x =>
    simp only [execWith, exec, execLdVxMem] at h
    split at h <;> cases h <;> simp [State.bumpI, State.takeFault]
  | ldVxK x =>
    simp only [execWith, exec, execLdVxK] at h
    split at h <;> cases h <;> exact ⟨fun _ => rfl, fun _ => rfl⟩
  | addReg x y | sub x y | shr x y | subn x y | shl x y =>
    cases h; rw [aluWithFlag_eq]; exact ⟨fun _ => rfl, fun _ => rfl⟩
  | _ => cases h; exact ⟨fun _ => rfl, fun _ => rfl⟩

end Sys2Proof.Machine
end

