-- ==== Sys2Proof/Laws/PerInstr.lean ====
section
/-! SUPPORT. The family TableRow: every instruction's row is a row of the opcode map, and its word matches that row
(R85, R86). -/

namespace Sys2Proof.Laws.TableRow

/-- The instruction's row stands in the opcode map, and the instruction's word lies in that row. -/
def Statement (i : Instr) : Prop := i.row ∈ opcodeTable ∧ i.row.covers (encode i) = true

theorem covers_of_eq {r : OpcodeRow} {op : Word} (h : op &&& r.mask = r.pattern) : r.covers op = true := by
  simp [OpcodeRow.covers, h]

theorem mem_of_example {i : Instr} (e : Instr) (he : e ∈ rowExamples) (h : i.row = e.row) : i.row ∈ opcodeTable := by
  rw [h]; exact List.mem_map_of_mem he

theorem cls : Statement .cls := ⟨mem_of_example .cls (by decide) rfl, by decide⟩
theorem ret : Statement .ret := ⟨mem_of_example .ret (by decide) rfl, by decide⟩
theorem jp (nnn : Addr) : Statement (.jp nnn) :=
  ⟨mem_of_example (.jp 0) (by decide) rfl, covers_of_eq ((wordA_mask _ nnn).trans rfl)⟩
theorem call (nnn : Addr) : Statement (.call nnn) :=
  ⟨mem_of_example (.call 0) (by decide) rfl, covers_of_eq ((wordA_mask _ nnn).trans rfl)⟩
theorem ldI (nnn : Addr) : Statement (.ldI nnn) :=
  ⟨mem_of_example (.ldI 0) (by decide) rfl, covers_of_eq ((wordA_mask _ nnn).trans rfl)⟩
theorem jpV0 (nnn : Addr) : Statement (.jpV0 nnn) :=
  ⟨mem_of_example (.jpV0 0) (by decide) rfl, covers_of_eq ((wordA_mask _ nnn).trans rfl)⟩
theorem seImm (x : Reg) (nn : Byte) : Statement (.seImm x nn) :=
  ⟨mem_of_example (.seImm 0 0) (by decide) rfl, covers_of_eq ((wordR_mask_class _ x nn).trans rfl)⟩
theorem sneImm (x : Reg) (nn : Byte) : Statement (.sneImm x nn) :=
  ⟨mem_of_example (.sneImm 0 0) (by decide) rfl, covers_of_eq ((wordR_mask_class _ x nn).trans rfl)⟩
theorem ldImm (x : Reg) (nn : Byte) : Statement (.ldImm x nn) :=
  ⟨mem_of_example (.ldImm 0 0) (by decide) rfl, covers_of_eq ((wordR_mask_class _ x nn).trans rfl)⟩
theorem addImm (x : Reg) (nn : Byte) : Statement (.addImm x nn) :=
  ⟨mem_of_example (.addImm 0 0) (by decide) rfl, covers_of_eq ((wordR_mask_class _ x nn).trans rfl)⟩
theorem rnd (x : Reg) (nn : Byte) : Statement (.rnd x nn) :=
  ⟨mem_of_example (.rnd 0 0) (by decide) rfl, covers_of_eq ((wordR_mask_class _ x nn).trans rfl)⟩
theorem seReg (x y : Reg) : Statement (.seReg x y) :=
  ⟨mem_of_example (.seReg 0 0) (by decide) rfl, covers_of_eq ((wordP_mask _ x y _).trans rfl)⟩
theorem ldReg (x y : Reg) : Statement (.ldReg x y) :=
  ⟨mem_of_example (.ldReg 0 0) (by decide) rfl, covers_of_eq ((wordP_mask _ x y _).trans rfl)⟩
theorem orReg (x y : Reg) : Statement (.orReg x y) :=
  ⟨mem_of_example (.orReg 0 0) (by decide) rfl, covers_of_eq ((wordP_mask _ x y _).trans rfl)⟩
theorem andReg (x y : Reg) : Statement (.andReg x y) :=
  ⟨mem_of_example (.andReg 0 0) (by decide) rfl, covers_of_eq ((wordP_mask _ x y _).trans rfl)⟩
theorem xorReg (x y : Reg) : Statement (.xorReg x y) :=
  ⟨mem_of_example (.xorReg 0 0) (by decide) rfl, covers_of_eq ((wordP_mask _ x y _).trans rfl)⟩
theorem addReg (x y : Reg) : Statement (.addReg x y) :=
  ⟨mem_of_example (.addReg 0 0) (by decide) rfl, covers_of_eq ((wordP_mask _ x y _).trans rfl)⟩
theorem sub (x y : Reg) : Statement (.sub x y) :=
  ⟨mem_of_example (.sub 0 0) (by decide) rfl, covers_of_eq ((wordP_mask _ x y _).trans rfl)⟩
theorem shr (x y : Reg) : Statement (.shr x y) :=
  ⟨mem_of_example (.shr 0 0) (by decide) rfl, covers_of_eq ((wordP_mask _ x y _).trans rfl)⟩
theorem subn (x y : Reg) : Statement (.subn x y) :=
  ⟨mem_of_example (.subn 0 0) (by decide) rfl, covers_of_eq ((wordP_mask _ x y _).trans rfl)⟩
theorem shl (x y : Reg) : Statement (.shl x y) :=
  ⟨mem_of_example (.shl 0 0) (by decide) rfl, covers_of_eq ((wordP_mask _ x y _).trans rfl)⟩
theorem sneReg (x y : Reg) : Statement (.sneReg x y) :=
  ⟨mem_of_example (.sneReg 0 0) (by decide) rfl, covers_of_eq ((wordP_mask _ x y _).trans rfl)⟩
theorem drw (x y : Reg) (n : Nat) : Statement (.drw x y n) :=
  ⟨mem_of_example (.drw 0 0 0) (by decide) rfl, covers_of_eq ((wordP_mask_class _ x y _).trans rfl)⟩
theorem skp (x : Reg) : Statement (.skp x) :=
  ⟨mem_of_example (.skp 0) (by decide) rfl, covers_of_eq ((wordR_mask _ x _).trans rfl)⟩
theorem sknp (x : Reg) : Statement (.sknp x) :=
  ⟨mem_of_example (.sknp 0) (by decide) rfl, covers_of_eq ((wordR_mask _ x _).trans rfl)⟩
theorem ldVxDt (x : Reg) : Statement (.ldVxDt x) :=
  ⟨mem_of_example (.ldVxDt 0) (by decide) rfl, covers_of_eq ((wordR_mask _ x _).trans rfl)⟩
theorem ldVxK (x : Reg) : Statement (.ldVxK x) :=
  ⟨mem_of_example (.ldVxK 0) (by decide) rfl, covers_of_eq ((wordR_mask _ x _).trans rfl)⟩
theorem ldDtVx (x : Reg) : Statement (.ldDtVx x) :=
  ⟨mem_of_example (.ldDtVx 0) (by decide) rfl, covers_of_eq ((wordR_mask _ x _).trans rfl)⟩
theorem ldStVx (x : Reg) : Statement (.ldStVx x) :=
  ⟨mem_of_example (.ldStVx 0) (by decide) rfl, covers_of_eq ((wordR_mask _ x _).trans rfl)⟩
theorem addIVx (x : Reg) : Statement (.addIVx x) :=
  ⟨mem_of_example (.addIVx 0) (by decide) rfl, covers_of_eq ((wordR_mask _ x _).trans rfl)⟩
theorem ldFVx (x : Reg) : Statement (.ldFVx x) :=
  ⟨mem_of_example (.ldFVx 0) (by decide) rfl, covers_of_eq ((wordR_mask _ x _).trans rfl)⟩
theorem ldBVx (x : Reg) : Statement (.ldBVx x) :=
  ⟨mem_of_example (.ldBVx 0) (by decide) rfl, covers_of_eq ((wordR_mask _ x _).trans rfl)⟩
theorem ldMemVx (x : Reg) : Statement (.ldMemVx x) :=
  ⟨mem_of_example (.ldMemVx 0) (by decide) rfl, covers_of_eq ((wordR_mask _ x _).trans rfl)⟩
theorem ldVxMem (x : Reg) : Statement (.ldVxMem x) :=
  ⟨mem_of_example (.ldVxMem 0) (by decide) rfl, covers_of_eq ((wordR_mask _ x _).trans rfl)⟩

end Sys2Proof.Laws.TableRow
end

