-- ==== Sys2Proof/Tests/Slice0.lean ====
section
/-! SUPPORT. Tests. Expected results are the spec's: the words of decode tests are written out from R86 and R87, the
steps from 95_test_vectors.md (the section is named where the tests start). The last part shows, for every statement
with hypotheses, a state and operands that meet them (test_witness_<statement>). -/

namespace Sys2Proof.Tests

open Sys2Proof Sys2Proof.Machine

/-! ## Helpers -/

/-- The state after INIT with some registers set. -/
def withRegs (rs : List (Reg × Byte)) (s : State := State.reset) : State :=
  rs.foldl (fun t r => t.writeV r.1 r.2) s

/-- s with bytes at an address. -/
def withBytes (a : Nat) (bs : List Byte) (s : State) : State := { s with mem := writeBlock s.mem a bs }

/-- s with a key pressed. -/
def withKey (k : Reg) (s : State) : State := { s with key := s.key.set k true }

/-- s with a pixel on. -/
def withPixel (y x : Nat) (s : State) : State := { s with fb := flipPixel s.fb y x }

/-- s with some entries of the call stack in use, all of them w. -/
def withStack (n : Fin 17) (w : Word) (s : State) : State := { s with sp := n, stack := Vector.replicate 16 w }

/-- What f sees after an outcome, if it is a next state. -/
def see {α : Type} (f : State → α) : Result → Option α
  | .next t => some (f t)
  | _ => none

/-- What f sees after a STEP of the word w from s. -/
def stepOf {α : Type} (w : Nat) (s : State) (f : State → α) : Option α := see f (step (s.withFetchWord 16 w))

/-- The same under given parameter values. -/
def stepUnder {α : Type} (p : Params) (w : Nat) (s : State) (f : State → α) : Option α :=
  see f (cycle (execWith p) (s.withFetchWord 16 w))

/-- cause, pc, opcode, info0, info1 of a latched record. -/
def faultOf (t : State) : Option (List Nat) :=
  t.fault.map fun r => [r.cause.toNat, r.pc.toNat, r.opcode.toNat, r.info0.toNat, r.info1.toNat]

/-- The columns that are on in a row. -/
def litColumns (t : State) (y : Nat) : List Nat := (List.range 64).filter fun x => pixelAt t.fb y x

/-- The CORE with VF_OPERAND_ORDER = latched. -/
def latchedOrder : Params := { coreParams with vfOperandOrder := .latched }

/-- The CORE with OFFSCREEN_POLICY = clip. -/
def clipping : Params := { coreParams with offscreenPolicy := .clip }

/-- The CORE with SPRITE_ROW_WIDTH = 7. -/
def sevenWide : Params := { coreParams with spriteRowWidth := .seven }

/-- The CORE with TIMER_COUPLING = per_step. -/
def perStep (onFault : Bool) : Params := { coreParams with timerCoupling := .perStep onFault }

/-! ## Well-formedness -/

theorem test_wellFormed_refuses_sixteen_rows : Instr.wellFormed (.drw 1 2 16) = false := by decide

theorem test_wellFormed_takes_fifteen_rows : Instr.wellFormed (.drw 1 2 15) = true := by decide

/-! ## Decoding: every row, from words written out by R86 and R87 -/

theorem test_decode_display :
    decodeTableWord 16 0b0000000011100000 = some .cls ∧
      decodeTableWord 16 0b1101000100100101 = some (.drw 1 2 5) := by decide

theorem test_decode_control_transfer :
    decodeTableWord 16 0b0000000011101110 = some .ret ∧
      decodeTableWord 16 0b0001101010111100 = some (.jp 0xABC#12) ∧
      decodeTableWord 16 0b0010001000001110 = some (.call 0x20E#12) ∧
      decodeTableWord 16 0b1011110100000001 = some (.jpV0 0xD01#12) := by decide

theorem test_decode_skips :
    decodeTableWord 16 0b0011111101000010 = some (.seImm 15 0x42#8) ∧
      decodeTableWord 16 0b0100001110000001 = some (.sneImm 3 0x81#8) ∧
      decodeTableWord 16 0b0101000111100000 = some (.seReg 1 14) ∧
      decodeTableWord 16 0b1001000111100000 = some (.sneReg 1 14) ∧
      decodeTableWord 16 0b1110010110011110 = some (.skp 5) ∧
      decodeTableWord 16 0b1110010110100001 = some (.sknp 5) := by decide

theorem test_decode_loads_and_immediates :
    decodeTableWord 16 0b0110101001111011 = some (.ldImm 10 0x7B#8) ∧
      decodeTableWord 16 0b0111001011110000 = some (.addImm 2 0xF0#8) ∧
      decodeTableWord 16 0b1000000100100000 = some (.ldReg 1 2) ∧
      decodeTableWord 16 0b1100001100001111 = some (.rnd 3 0x0F#8) := by decide

theorem test_decode_alu :
    decodeTableWord 16 0b1000101000110001 = some (.orReg 10 3) ∧
      decodeTableWord 16 0b1000101000110010 = some (.andReg 10 3) ∧
      decodeTableWord 16 0b1000101000110011 = some (.xorReg 10 3) ∧
      decodeTableWord 16 0b1000101000110100 = some (.addReg 10 3) ∧
      decodeTableWord 16 0b1000101000110101 = some (.sub 10 3) ∧
      decodeTableWord 16 0b1000101000110110 = some (.shr 10 3) ∧
      decodeTableWord 16 0b1000101000110111 = some (.subn 10 3) ∧
      decodeTableWord 16 0b1000101000111110 = some (.shl 10 3) := by decide

theorem test_decode_index_and_memory :
    decodeTableWord 16 0b1010001100000101 = some (.ldI 0x305#12) ∧
      decodeTableWord 16 0b1111001000011110 = some (.addIVx 2) ∧
      decodeTableWord 16 0b1111010000101001 = some (.ldFVx 4) ∧
      decodeTableWord 16 0b1111101000110011 = some (.ldBVx 10) ∧
      decodeTableWord 16 0b1111111101010101 = some (.ldMemVx 15) ∧
      decodeTableWord 16 0b1111001001100101 = some (.ldVxMem 2) := by decide

theorem test_decode_timers_and_keys :
    decodeTableWord 16 0b1111001100000111 = some (.ldVxDt 3) ∧
      decodeTableWord 16 0b1111000100001010 = some (.ldVxK 1) ∧
      decodeTableWord 16 0b1111001000010101 = some (.ldDtVx 2) ∧
      decodeTableWord 16 0b1111001000011000 = some (.ldStVx 2) := by decide

/-- The illegal words of 95 section 2.1. -/
theorem test_decode_illegal_words :
    ([0x0000, 0x0123, 0x00E1, 0x5121, 0x9128, 0x8008, 0x800F, 0xE09F, 0xE1A0, 0xF000, 0xF130, 0xF166, 0xFFFF].map
      (decodeTableWord 16)).all Option.isNone = true := by decide

theorem test_encode_stores_high_byte_first : encodeBytes (.call 0x20E#12) = [0x22#8, 0x0E#8] := by decide

theorem test_table_has_34_rows : opcodeTable.length = 34 ∧ rowExamples.all Instr.wellFormed = true := by decide

/-! ## Fetch and decode (95 section 2.1) -/

theorem test_fetch_last_word :
    stepOf 0x6007 { State.reset with pc := 0xFFE#16 } (fun t => (t.readV 0, t.pc)) = some (0x07#8, 0x1000#16) := by
  decide

theorem test_fetch_odd_pc :
    stepOf 0x6A01 { State.reset with pc := 0x201#16 } (fun t => (t.readV 10, t.pc)) = some (0x01#8, 0x203#16) := by
  decide

theorem test_fetch_faults_at_the_end :
    see faultOf (step { State.reset with pc := 0xFFF#16 }) = some (some [1, 0xFFF, 0, 0x1000, 0]) ∧
      see faultOf (step { State.reset with pc := 0x10FE#16 }) = some (some [1, 0x10FE, 0, 0x10FE, 0]) := by decide

theorem test_illegal_word_faults :
    stepOf 0xFFFF State.reset (fun t => (faultOf t, t.pc)) = some (some [2, 0x200, 0xFFFF, 0, 0], 0x200#16) := by decide

/-! ## Display (95 section 2.2) -/

theorem test_cls :
    stepOf 0x00E0 (withPixel 3 5 { State.reset with redraw := false })
      (fun t => (pixelAt t.fb 3 5, t.redraw, t.pc)) = some (false, true, 0x202#16) := by decide

theorem test_drw_glyph_zero :
    stepOf 0xD125 State.reset
      (fun t => ([0, 1, 3, 4, 5].map (litColumns t), t.readV 15)) =
      some ([[0, 1, 2, 3], [0, 3], [0, 3], [0, 1, 2, 3], []], 0x00#8) := by decide

theorem test_drw_first_off_grid_bit :
    stepOf 0xD012 (withBytes 0x300 [0xC0#8, 0x80#8] (withRegs [(0, 63#8), (1, 30#8)] { State.reset with I := 0x300#16 }))
      (fun t => (faultOf t, litColumns t 30)) = some (some [7, 0x200, 0xD012, 64, 30], []) := by decide

theorem test_drw_clip :
    stepUnder clipping 0xD011
      (withPixel 0 62 (withBytes 0x300 [0xF0#8] (withRegs [(0, 61#8)] { State.reset with I := 0x300#16 })))
      (fun t => (litColumns t 0, t.readV 15)) = some ([61, 63], 0x01#8) := by decide

theorem test_drw_seven_wide :
    stepUnder sevenWide 0xD011 (withBytes 0x300 [0x01#8] { State.reset with I := 0x300#16 })
      (fun t => (litColumns t 0, t.readV 15)) = some ([], 0x00#8) := by decide

/-! ## Control transfer (95 section 2.3) -/

theorem test_jp : stepOf 0x1FFF State.reset (fun t => t.pc) = some 0xFFF#16 := by decide

theorem test_call :
    stepOf 0x220E { State.reset with pc := 0x208#16 } (fun t => (t.stack[0], t.sp, t.pc)) =
      some (0x208#16, 1, 0x20E#16) := by decide

theorem test_call_overflow :
    stepOf 0x2300 { State.reset with sp := 16 } (fun t => (faultOf t, t.sp, t.pc)) =
      some (some [3, 0x200, 0x2300, 0x300, 16], 16, 0x200#16) := by decide

theorem test_ret :
    stepOf 0x00EE (withStack 1 0x208#16 { State.reset with pc := 0x210#16 }) (fun t => (t.sp, t.pc, t.stack[0])) =
      some (0, 0x20A#16, 0x208#16) := by decide

theorem test_ret_underflow : stepOf 0x00EE State.reset faultOf = some (some [4, 0x200, 0x00EE, 0, 0]) := by decide

theorem test_jpV0 :
    stepOf 0xBFFF (withRegs [(0, 0xFF#8)]) (fun t => t.pc) = some 0x10FE#16 ∧
      stepOf 0xB500 (withRegs [(5, 0x40#8)]) (fun t => t.pc) = some 0x500#16 := by decide

/-! ## Skips (95 section 2.4) -/

theorem test_seImm :
    stepOf 0x3342 (withRegs [(3, 0x42#8)]) (fun t => t.pc) = some 0x204#16 ∧
      stepOf 0x3343 (withRegs [(3, 0x42#8)]) (fun t => t.pc) = some 0x202#16 := by decide

theorem test_sneImm :
    stepOf 0x4342 (withRegs [(3, 0x42#8)]) (fun t => t.pc) = some 0x202#16 ∧
      stepOf 0x4300 (withRegs [(3, 0x42#8)]) (fun t => t.pc) = some 0x204#16 := by decide

theorem test_seReg :
    stepOf 0x5120 (withRegs [(1, 7#8), (2, 8#8)]) (fun t => t.pc) = some 0x202#16 ∧
      stepOf 0x5110 (withRegs [(1, 7#8)]) (fun t => t.pc) = some 0x204#16 := by decide

theorem test_sneReg :
    stepOf 0x9120 (withRegs [(1, 7#8), (2, 8#8)]) (fun t => t.pc) = some 0x204#16 ∧
      stepOf 0x9110 (withRegs [(1, 7#8)]) (fun t => t.pc) = some 0x202#16 := by decide

theorem test_skp :
    stepOf 0xE59E (withKey 10 (withRegs [(5, 0x0A#8)])) (fun t => t.pc) = some 0x204#16 ∧
      stepOf 0xE59E (withRegs [(5, 0x10#8)]) faultOf = some (some [6, 0x200, 0xE59E, 0x10, 0]) := by decide

theorem test_sknp :
    stepOf 0xE5A1 (withKey 10 (withRegs [(5, 0x0A#8)])) (fun t => t.pc) = some 0x202#16 ∧
      stepOf 0xE5A1 (withRegs [(5, 0xFF#8)]) faultOf = some (some [6, 0x200, 0xE5A1, 0xFF, 0]) := by decide

/-! ## Register loads and ALU (95 section 2.5; "seq" and "lat" are its columns) -/

theorem test_ldImm : stepOf 0x6005 State.reset (fun t => t.readV 0) = some 0x05#8 := by decide

theorem test_addImm_no_carry :
    stepOf 0x7201 (withRegs [(2, 0xFF#8), (15, 0x07#8)]) (fun t => (t.readV 2, t.readV 15)) = some (0x00#8, 0x07#8) := by
  decide

theorem test_ldReg : stepOf 0x8010 (withRegs [(1, 0x12#8)]) (fun t => (t.readV 0, t.readV 1)) = some (0x12#8, 0x12#8) := by
  decide

theorem test_orReg :
    stepOf 0x8011 (withRegs [(0, 0x0C#8), (1, 0x0A#8), (15, 1#8)]) (fun t => (t.readV 0, t.readV 15)) =
      some (0x0E#8, 0x00#8) := by decide

theorem test_orReg_of_vf : stepOf 0x8F11 (withRegs [(15, 0x0F#8), (1, 0xF0#8)]) (fun t => t.readV 15) = some 0x00#8 := by
  decide

theorem test_andReg :
    stepOf 0x8012 (withRegs [(0, 0x0C#8), (1, 0x0A#8)]) (fun t => (t.readV 0, t.readV 15)) = some (0x08#8, 0x00#8) := by
  decide

theorem test_xorReg :
    stepOf 0x8013 (withRegs [(0, 0x0C#8), (1, 0x0A#8)]) (fun t => (t.readV 0, t.readV 15)) = some (0x06#8, 0x00#8) := by
  decide

theorem test_addReg :
    stepOf 0x8114 (withRegs [(1, 0x80#8)]) (fun t => (t.readV 1, t.readV 15)) = some (0x00#8, 0x01#8) := by decide

theorem test_addReg_into_vf :
    stepOf 0x8F14 (withRegs [(15, 0xF0#8), (1, 0x20#8)]) (fun t => t.readV 15) = some 0x21#8 ∧
      stepUnder latchedOrder 0x8F14 (withRegs [(15, 0xF0#8), (1, 0x20#8)]) (fun t => t.readV 15) = some 0x01#8 := by
  decide

theorem test_sub :
    stepOf 0x8015 (withRegs [(0, 3#8), (1, 8#8)]) (fun t => (t.readV 0, t.readV 15)) = some (0xFB#8, 0x00#8) ∧
      stepOf 0x8005 (withRegs [(0, 0x42#8)]) (fun t => (t.readV 0, t.readV 15)) = some (0x00#8, 0x01#8) := by decide

theorem test_sub_of_vf :
    stepOf 0x80F5 (withRegs [(0, 5#8), (15, 3#8)]) (fun t => (t.readV 0, t.readV 15)) = some (0x04#8, 0x01#8) ∧
      stepUnder latchedOrder 0x80F5 (withRegs [(0, 5#8), (15, 3#8)]) (fun t => (t.readV 0, t.readV 15)) =
        some (0x02#8, 0x01#8) := by decide

theorem test_shr_ignores_y :
    stepOf 0x8126 (withRegs [(1, 0x04#8), (2, 0xFF#8)]) (fun t => (t.readV 1, t.readV 15)) = some (0x02#8, 0x00#8) := by
  decide

theorem test_shr_of_vf :
    stepOf 0x8F06 (withRegs [(15, 0x03#8)]) (fun t => t.readV 15) = some 0x00#8 ∧
      stepUnder latchedOrder 0x8F06 (withRegs [(15, 0x03#8)]) (fun t => t.readV 15) = some 0x01#8 := by decide

theorem test_subn :
    stepOf 0x8017 (withRegs [(0, 3#8), (1, 8#8)]) (fun t => (t.readV 0, t.readV 15)) = some (0x05#8, 0x01#8) := by decide

theorem test_subn_of_vf :
    stepOf 0x80F7 (withRegs [(0, 5#8), (15, 3#8)]) (fun t => (t.readV 0, t.readV 15)) = some (0xFB#8, 0x00#8) ∧
      stepUnder latchedOrder 0x80F7 (withRegs [(0, 5#8), (15, 3#8)]) (fun t => (t.readV 0, t.readV 15)) =
        some (0xFE#8, 0x00#8) := by decide

theorem test_shl_ignores_y :
    stepOf 0x81FE (withRegs [(1, 0x81#8)]) (fun t => (t.readV 1, t.readV 15)) = some (0x02#8, 0x01#8) := by decide

theorem test_shl_of_vf :
    stepOf 0x8F0E (withRegs [(15, 0x80#8)]) (fun t => t.readV 15) = some 0x02#8 ∧
      stepUnder latchedOrder 0x8F0E (withRegs [(15, 0x80#8)]) (fun t => t.readV 15) = some 0x01#8 := by decide

/-- The draw is a free value, so only what the rule fixes is tested. -/
theorem test_rnd_uses_up_a_draw : stepOf 0xC3FF State.reset (fun t => (t.draws, t.pc)) = some (1, 0x202#16) := by decide

/-! ## Index register and memory (95 section 2.6) -/

theorem test_ldI : stepOf 0xA300 State.reset (fun t => t.I) = some 0x0300#16 := by decide

theorem test_addIVx :
    stepOf 0xF21E (withRegs [(2, 2#8), (15, 7#8)] { State.reset with I := 0xFFFF#16 }) (fun t => (t.I, t.readV 15)) =
      some (0x0001#16, 0x07#8) := by decide

theorem test_ldFVx_no_mask :
    stepOf 0xF429 (withRegs [(4, 0x10#8)]) (fun t => t.I) = some 0x0050#16 ∧
      stepOf 0xF429 (withRegs [(4, 0xFF#8)]) (fun t => t.I) = some 0x04FB#16 := by decide

theorem test_ldBVx :
    stepOf 0xFA33 (withRegs [(10, 123#8)] { State.reset with I := 0x300#16 })
      (fun t => (readBlock t.mem 0x2FF 5, t.I)) = some ([0#8, 1#8, 2#8, 3#8, 0#8], 0x300#16) := by decide

theorem test_ldBVx_rejected_whole :
    stepOf 0xF033 (withRegs [(0, 255#8)] { State.reset with I := 0xFFE#16 })
      (fun t => (faultOf t, readByte t.mem 0xFFE)) = some (some [5, 0x200, 0xF033, 0x1000, 0], 0x00#8) := by decide

theorem test_ldMemVx :
    stepOf 0xF155 (withRegs [(0, 0x11#8), (1, 0x22#8), (2, 0x33#8)] { State.reset with I := 0x400#16 })
      (fun t => (readBlock t.mem 0x3FF 4, t.I)) = some ([0#8, 0x11#8, 0x22#8, 0#8], 0x402#16) := by decide

theorem test_ldMemVx_rejected_whole :
    stepOf 0xFF55 (withRegs [(0, 0x11#8)] { State.reset with I := 0xFF8#16 })
      (fun t => (faultOf t, readByte t.mem 0xFF8, t.I)) =
      some (some [5, 0x200, 0xFF55, 0x1000, 0], 0x00#8, 0xFF8#16) := by decide

theorem test_ldVxMem_reads_the_font :
    stepOf 0xF465 State.reset (fun t => ((List.finRange 6).map fun k => t.readV (k.castLE (by decide)), t.I)) =
      some ([0xF0#8, 0x90#8, 0x90#8, 0x90#8, 0xF0#8, 0x00#8], 0x0005#16) := by decide

theorem test_ldVxMem_rejected_whole :
    stepOf 0xF165 (withRegs [(0, 9#8)] { State.reset with I := 0xFFF#16 }) (fun t => (faultOf t, t.readV 0)) =
      some (some [5, 0x200, 0xF165, 0x1000, 0], 9#8) := by decide

/-! ## Timers and key wait (95 section 2.7) -/

theorem test_ldVxDt :
    stepOf 0xF307 { State.reset with DT := 0x3C#8 } (fun t => (t.readV 3, t.DT)) = some (0x3C#8, 0x3C#8) := by decide

theorem test_ldDtVx : stepOf 0xF215 (withRegs [(2, 0x3C#8)]) (fun t => t.DT) = some 0x3C#8 := by decide

theorem test_ldStVx : stepOf 0xF218 (withRegs [(2, 0x01#8)]) (fun t => t.ST) = some 0x01#8 := by decide

theorem test_ldVxK :
    stepOf 0xF10A (withKey 9 (withKey 5 State.reset)) (fun t => (t.readV 1, t.pc)) = some (0x05#8, 0x202#16) := by decide

theorem test_ldVxK_waits : stepOf 0xF10A State.reset (fun t => (t.readV 1, t.pc)) = some (0x00#8, 0x200#16) := by decide

/-! ## Host operations (95 sections 2.7 and 2.8) -/

/-- What f sees after a host operation. -/
def hostOf {α : Type} (p : Params) (op : HostOp) (s : State) (f : State × HostResult → α) : Option α :=
  match hostApply p op s with
  | .next r => some (f r)
  | _ => none

theorem test_tick :
    hostOf coreParams .tick { State.reset with DT := 5#8, ST := 1#8 } (fun r => (r.1.DT, r.1.ST, r.2)) =
      some (4#8, 0#8, .tone true) := by decide

theorem test_tick_floor :
    hostOf coreParams .tick State.reset (fun r => (r.1.DT, r.1.ST, r.2)) = some (0#8, 0#8, .tone false) := by decide

theorem test_per_step_tick :
    hostOf (perStep false) .step (State.withFetchWord { State.reset with DT := 2#8, ST := 1#8 } 16 0x6005)
      (fun r => (r.1.readV 0, r.1.DT, r.1.ST, r.2)) = some (5#8, 1#8, 0#8, .stepOk (some true)) := by decide

theorem test_load :
    hostOf coreParams (.load [0xAA#8, 0xBB#8, 0xCC#8]) State.reset
      (fun r => (readBlock r.1.mem 0x1FF 5, r.1.pc, r.2)) =
      some ([0#8, 0xAA#8, 0xBB#8, 0xCC#8, 0#8], 0x200#16, .loadOk) := by decide

theorem test_load_too_large (b : Byte) :
    hostApply coreParams (.load (List.replicate 3585 b)) State.reset = .next (State.reset, .loadTooLarge) := by
  rw [hostApply, State.load, if_pos (by rw [List.length_replicate]; decide)]

theorem test_write_keys :
    hostOf coreParams (.writeKeys 0x0021#16) State.reset
      (fun r => (List.finRange 16).filter fun k => r.1.key[k]) = some [0, 5] := by decide

theorem test_clear_redraw :
    hostOf coreParams .clearRedraw State.reset (fun r => (r.1.redraw, r.2)) = some (false, .none) := by decide

/-- 70_reset_and_hazards.md R295: the first STEP after INIT alone. -/
theorem test_step_after_init : see faultOf (step State.reset) = some (some [2, 0x200, 0x0000, 0, 0]) := by decide

/-- S2: the first and last glyph of the font, and what follows it. -/
theorem test_font_in_memory :
    readBlock State.reset.mem 0 5 = [0xF0#8, 0x90#8, 0x90#8, 0x90#8, 0xF0#8] ∧
      readBlock State.reset.mem 0x4B 6 = [0xF0#8, 0x80#8, 0xF0#8, 0x80#8, 0x80#8, 0x00#8] := by decide

/-! ## Witnesses: the hypotheses of every statement that has some are met -/

/-- The sprite has no bit off the grid if none of its n × w bits is. -/
theorem offGrid_none {w n : Nat} {x y : Reg} {s : State}
    (h : ∀ r : Fin n, ∀ c : Fin w, s.offGridBit w x y n r.val c.val = false) :
    ∀ r c, s.offGridBit w x y n r c = false := by
  intro r c
  by_cases hr : r < n
  · by_cases hc : c < w
    · exact h ⟨r, hr⟩ ⟨c, hc⟩
    · simp [State.offGridBit, State.spriteBit, hc]
  · simp [State.offGridBit, State.spriteBit, hr]

/-- A bit is the first off the grid if it is the first of the n × w bits. -/
theorem offGrid_first {w n r c : Nat} {x y : Reg} {s : State}
    (h : ∀ r' : Fin n, ∀ c' : Fin w, s.offGridBit w x y n r'.val c'.val = true → r < r'.val ∨ (r = r'.val ∧ c ≤ c'.val)) :
    ∀ r' c', s.offGridBit w x y n r' c' = true → r < r' ∨ (r = r' ∧ c ≤ c') := by
  intro r' c' hb
  have hb' := hb
  simp only [State.offGridBit, State.spriteBit, Bool.and_eq_true, decide_eq_true_eq] at hb'
  exact h ⟨r', hb'.1.1.1⟩ ⟨c', hb'.1.1.2⟩ hb

/-- A latched state: the one after a STEP from INIT. -/
def latchedState : State := State.reset.latched 2 0x0000 0 0

/-- A one-row sprite of four columns at (V0, V1), drawn from 0x300. -/
def spriteAt (v0 v1 : Byte) : State :=
  withBytes 0x300 [0xF0#8] (withRegs [(0, v0), (1, v1)] { State.reset with I := 0x300#16 })

theorem test_witness_DecodeOfEncodeIsIdentity :
    Instr.wellFormed (.drw 15 0 0) = true ∧ Instr.wellFormed (.drw 0 15 15) = true ∧
      Instr.wellFormed (.jp 0xFFF#12) = true := by decide

theorem test_witness_EncodeOfDecodeIsIdentity : decodeWord 0x8AB6#16 = some (.shr 10 11) := by decide

/-- The illegal word at the last address a fetch can start from. -/
theorem test_witness_DecoderSelectsTheUniqueRow :
    decodeWord 0xD125#16 = some (.drw 1 2 5) ∧ decodeWord 0x0000#16 = none ∧
      ({ State.reset with pc := 0xFFE#16 } : State).fault = none ∧
      ({ State.reset with pc := 0xFFE#16 } : State).pc.toNat ≤ 0xFFE ∧
      ({ State.reset with pc := 0xFFE#16 } : State).wordAtPc = (0x0000#16).toNat := by decide

theorem test_witness_StepRunsTheDecodedInstruction :
    let s : State := State.withFetchWord { State.reset with pc := 0xFFE#16 } 16 0x6007
    s.fault = none ∧ s.pc.toNat ≤ 0xFFE ∧
      (match decode [readByte s.mem s.pc.toNat, readByte s.mem (s.pc.toNat + 1)] with
        | .ok r => some r
        | .error _ => none) = some (.ldImm 0 0x07#8, []) := by decide

theorem test_witness_FetchReadsBigEndianOrFaults :
    ({ State.reset with pc := 0xFFE#16 } : State).pc.toNat ≤ 0xFFE ∧
      ({ State.reset with pc := 0xFFF#16 } : State).fault = none ∧
      ({ State.reset with pc := 0xFFF#16 } : State).pc.toNat > 0xFFE := by decide

theorem test_witness_SetLatchStopsEveryStep :
    latchedState.fault.isSome = true ∧ HostOp.tick ≠ .init ∧ HostOp.tick ≠ .step ∧ HostOp.tick ≠ .readFault := by decide

theorem test_witness_FaultingStepOnlySetsTheLatch :
    State.reset.fault = none ∧ see (fun t => t.fault.isSome) (step State.reset) = some true := by decide

/-- A fault of each kind of check, and no fault. -/
theorem test_witness_StepFaultsExactlyByPriority :
    State.reset.fault = none ∧ (expectedFaultState State.reset).isSome = true ∧
      expectedFaultState (State.reset.withFetchWord 16 0x6005) = none ∧
      (expectedFaultState { State.reset with pc := 0xFFF#16 }).bind faultOf = some [1, 0xFFF, 0, 0x1000, 0] ∧
      (expectedFaultState ((spriteAt 61#8 0#8).withFetchWord 16 0xD011)).bind faultOf = some [7, 0x200, 0xD011, 64, 0] ∧
      latchedState.fault ≠ none := by decide

theorem test_witness_load_too_large_length (b : Byte) : (List.replicate 3585 b).length > 3584 := by
  rw [List.length_replicate]; decide

/-- The invariant holds in a state whose pc is at its bound. -/
theorem test_witness_StepKeepsTheInvariant :
    State.Inv { State.reset with pc := 0x10FE#16 } ∧
      see faultOf (step { State.reset with pc := 0x10FE#16 }) = some (some [1, 0x10FE, 0, 0x10FE, 0]) :=
  ⟨⟨wf_nil, by decide, by decide, by decide⟩, by decide⟩

theorem test_witness_HostRunsKeepTheInvariant :
    State.Inv { State.reset with pc := 0xFFE#16 } ∧
      see (fun t => t.DT) (hostRun coreParams [.tick, .load [0x60#8], .step, .init] { State.reset with pc := 0xFFE#16 }) =
        some 0x00#8 :=
  ⟨⟨wf_nil, by decide, by decide, by decide⟩, by decide⟩

theorem test_witness_InitGivesTheResetState :
    latchedState.fault ≠ none ∧ hostOf coreParams .init latchedState (fun r => r.1.fault) = some none := by decide

/-- On the grid at the bottom right corner; and a pixel that was on, and one row of zero rows. -/
theorem test_witness_DrwDrawsBySpriteXor_draws :
    ((spriteAt 60#8 31#8).I.toNat + 1 - 1 ≤ 0xFFF) ∧ (∀ r c, (spriteAt 60#8 31#8).offGridBit 8 0 1 1 r c = false) ∧
      (withPixel 31 63 (spriteAt 60#8 31#8)).spriteCovers 8 0 1 1 31 63 = true ∧
      pixelAt (withPixel 31 63 (spriteAt 60#8 31#8)).fb 31 63 = true :=
  ⟨by decide, offGrid_none (by decide), by decide, by decide⟩

/-- The lowest pair of I and n that leaves memory, and the highest that does not. -/
theorem test_witness_DrwDrawsBySpriteXor_memory :
    ((0xFFF#16).toNat + 2 - 1 > 0xFFF) ∧ ((0xFFF#16).toNat + 1 - 1 ≤ 0xFFF) ∧
      ({ State.reset with I := 0xFFF#16 } : State).I.toNat + 2 - 1 > 0xFFF := by decide

/-- One column too far right, and one row too low. -/
theorem test_witness_DrwDrawsBySpriteXor_screen :
    ((spriteAt 61#8 0#8).offGridBit 8 0 1 1 0 3 = true ∧
      ∀ r' c', (spriteAt 61#8 0#8).offGridBit 8 0 1 1 r' c' = true → 0 < r' ∨ (0 = r' ∧ 3 ≤ c')) ∧
      (spriteAt 0#8 32#8).offGridBit 8 0 1 1 0 0 = true ∧
      ∀ r' c', (spriteAt 0#8 32#8).offGridBit 8 0 1 1 r' c' = true → 0 < r' ∨ (0 = r' ∧ 0 ≤ c') :=
  ⟨⟨by decide, offGrid_first (by decide)⟩, by decide, offGrid_first (by decide)⟩

/-- Seven columns, and the clip policy. -/
theorem test_witness_DrwUnderEveryParameterValue :
    7 = (if sevenWide.spriteRowWidth = .eight then 8 else 7) ∧ 8 = (if clipping.spriteRowWidth = .eight then 8 else 7) ∧
      clipping.offscreenPolicy = .clip ∧ sevenWide.offscreenPolicy = .fault ∧
      (spriteAt 61#8 0#8).offGridBit 7 0 1 1 0 3 = true ∧
      ∀ r' c', (spriteAt 61#8 0#8).offGridBit 7 0 1 1 r' c' = true → 0 < r' ∨ (0 = r' ∧ 3 ≤ c') :=
  ⟨by decide, by decide, by decide, by decide, by decide, offGrid_first (by decide)⟩

theorem test_witness_DrwTwiceRestoresTheScreen :
    (0 : Reg) ≠ 15 ∧ (1 : Reg) ≠ 15 ∧ (spriteAt 60#8 31#8).I.toNat + 1 - 1 ≤ 0xFFF ∧
      (∀ r c, (spriteAt 60#8 31#8).offGridBit 8 0 1 1 r c = false) ∧
      (spriteAt 60#8 31#8).spriteCovers 8 0 1 1 31 60 = true ∧ pixelAt (spriteAt 60#8 31#8).fb 31 60 = false :=
  ⟨by decide, by decide, by decide, offGrid_none (by decide), by decide, by decide⟩

/-- The deepest and the shallowest stack RET pops, and the empty one. -/
theorem test_witness_RetPopsTheStack :
    (15 : Fin 16).val + 1 = (withStack 16 0x208#16 State.reset).sp.val ∧
      (0 : Fin 16).val + 1 = (withStack 1 0x208#16 State.reset).sp.val ∧ State.reset.sp.val = 0 := by decide

theorem test_witness_CallPushesItsOwnAddress :
    (0 : Fin 16).val = State.reset.sp.val ∧ (15 : Fin 16).val = (withStack 15 0x208#16 State.reset).sp.val ∧
      (0 : Fin 16) ≠ 15 ∧ (withStack 16 0x208#16 State.reset).sp.val = 16 := by decide

/-- The state the CALL left is itself such a later state. -/
theorem test_witness_RetResumesAfterTheCall :
    (15 : Fin 16).val = (withStack 15 0x208#16 State.reset).sp.val ∧
      see (fun t => t.sp) (exec (.call 0x300#12) (withStack 15 0x208#16 State.reset)) = some 16 := by decide

/-- V5 numbers the last key line, and no key line. -/
theorem test_witness_KeySkips :
    (15 : Reg).val = ((withRegs [(5, 0x0F#8)]).readV 5).toNat ∧ (0 : Reg).val = (State.reset.readV 5).toNat ∧
      ((withRegs [(5, 0x10#8)]).readV 5).toNat > 15 := by decide

theorem test_witness_latched_order :
    latchedOrder.vfOperandOrder = .latched ∧ (1 : Reg) ≠ 15 := by decide

/-- Operands at the carry: 255 does not carry, 256 does. -/
theorem test_witness_AddRegAddsWithCarry :
    127 = ((withRegs [(0, 0x7F#8), (1, 0x80#8)]).readV 0).toNat ∧
      128 = ((withRegs [(0, 0x7F#8), (1, 0x80#8)]).readV 1).toNat ∧ 0 = (if 127 + 128 > 255 then 1 else 0) ∧
      1 = (if 128 + 128 > 255 then 1 else 0) := by decide

/-- Equal operands do not borrow. -/
theorem test_witness_SubSubtractsWithNotBorrow :
    66 = ((withRegs [(0, 0x42#8)]).readV 0).toNat ∧ 1 = (if 66 > 66 then 0 else 1) ∧
      0 = (if 67 > 66 then 0 else 1) := by decide

theorem test_witness_ShrShiftsRight : 129 = ((withRegs [(3, 0x81#8)]).readV 3).toNat := by decide

/-- Operands of SUBN on both sides of the borrow. -/
theorem test_witness_SubnSubtractsReversed :
    3 = ((withRegs [(0, 3#8), (1, 8#8)]).readV 0).toNat ∧ 8 = ((withRegs [(0, 3#8), (1, 8#8)]).readV 1).toNat ∧
      1 = (if 3 > 8 then 0 else 1) ∧ 1 = (if 8 > 8 then 0 else 1) ∧ 0 = (if 9 > 8 then 0 else 1) := by decide

theorem test_witness_ShlShiftsLeft : 128 = ((withRegs [(15, 0x80#8)]).readV 15).toNat := by decide

/-- The last base at which three bytes fit, and the next one. -/
theorem test_witness_BcdStoresDecimalDigits :
    Memory.wf ({ State.reset with I := 0xFFD#16 } : State).mem ∧ (0xFFD#16).toNat + 2 ≤ 0xFFF ∧
      (0xFFE#16).toNat + 2 > 0xFFF := by
  exact ⟨wf_nil, by decide, by decide⟩

/-- Sixteen registers at the last base they fit at, and one further; memory that lists a byte. -/
theorem test_witness_StoreRegistersBlock :
    Memory.wf (spriteAt 0#8 0#8).mem ∧ (0xFF0#16).toNat + (15 : Reg).val ≤ 0xFFF ∧
      (0xFF1#16).toNat + (15 : Reg).val > 0xFFF ∧ (0xFFF#16).toNat + (0 : Reg).val ≤ 0xFFF ∧
      (0x1000#16).toNat + (0 : Reg).val > 0xFFF := by
  exact ⟨wf_writeBlock _ wf_nil (by decide), by decide, by decide, by decide, by decide⟩

theorem test_witness_LoadRegistersBlock :
    ({ State.reset with I := 0xFF0#16 } : State).I.toNat + (15 : Reg).val ≤ 0xFFF ∧
      ({ State.reset with I := 0xFF1#16 } : State).I.toNat + (15 : Reg).val > 0xFFF ∧ (14 : Reg) < 15 := by decide

/-- An empty block, a block that ends at 0xFFF, and one that ends at 0x1000. -/
theorem test_witness_BlocksAreCheckedWhole :
    blockLength (.drw 0 0 0) = some 0 ∧ blockLength (.ldVxMem 15) = some 16 ∧ blockLength (.ldBVx 0) = some 3 ∧
      (0xFF0#16).toNat + 16 - 1 ≤ 0xFFF ∧ (0xFF1#16).toNat + 16 - 1 > 0xFFF ∧ State.reset.fault = none := by decide

theorem test_witness_StoreThenLoadRestoresRegisters :
    Memory.wf State.reset.mem ∧ ({ State.reset with I := 0xFF0#16 } : State).I.toNat + (15 : Reg).val ≤ 0xFFF ∧
      (0 : Reg) ≤ 15 := ⟨wf_nil, by decide, by decide⟩

/-- F155 at 0x200 with I = 0x202 stores 6A 01 (V0, V1) where the next STEP fetches. -/
theorem test_witness_StoredInstructionRunsNext :
    let s : State := withRegs [(0, 0x6A#8), (1, 0x01#8)] { State.reset with I := 0x202#16 }
    0 + 1 ≤ (1 : Reg).val ∧ Memory.wf s.mem ∧ s.fault = none ∧ s.I.toNat + (1 : Reg).val ≤ 0xFFF ∧
      s.pc.toNat + 2 = s.I.toNat + 0 ∧ decodeWord (wordOfBytes (s.readV 0) (s.readV 1)) = some (.ldImm 10 0x01#8) :=
  ⟨by decide, wf_nil, by decide, by decide, by decide, by decide⟩

theorem test_witness_CanonicalMemoryIsItsReads :
    Memory.wf [(0x300, 0x01#8)] ∧ Memory.wf (writeByte (writeByte [] 0x300 0x02#8) 0x300 0x01#8) ∧
      writeByte (writeByte [] 0x300 0x02#8) 0x300 0x01#8 = [(0x300, 0x01#8)] := by decide

/-- Keys 5 and 9 pressed: 5 is the lowest; none pressed. -/
theorem test_witness_KeyWaitTakesTheLowestKey :
    (withKey 9 (withKey 5 State.reset)).key[(5 : Reg)] = true ∧
      (∀ j : Reg, j < 5 → (withKey 9 (withKey 5 State.reset)).key[j] = false) ∧
      ∀ k : Reg, State.reset.key[k] = false := by decide

/-- A completing instruction that keeps a register and memory, and one that takes a fault. -/
theorem test_witness_OnlyListedInstructionsWrite :
    see (fun t => t.readV 0) (exec (.addReg 1 2) State.reset) = some 0x00#8 ∧ writesReg (.addReg 1 2) 0 = false ∧
      Part.mem ≠ .fault ∧ writesPart (.addReg 1 2) .mem = false ∧
      see (fun t => t.fault.isSome) (exec .ret State.reset) = some true := by decide

/-- A fault, and a completing instruction. -/
theorem test_witness_PcMovesAsTheRulesSay :
    State.reset.fault = none ∧ see (fun t => t.fault.isSome) (exec .ret State.reset) = some true ∧
      see (fun t => t.fault.isSome) (exec (.ldVxK 1) State.reset) = some false := by decide

/-- The states differ in the entries above an empty stack. -/
theorem test_witness_DeadStackEntriesAreUnread :
    State.SameLive State.reset { State.reset with stack := Vector.replicate 16 0x0ABC#16 } ∧
      see (fun t => t.sp) (step State.reset) = some 0 ∧
      see (fun t => t.sp) (exec .ret (withStack 16 0x208#16 State.reset)) = some 15 :=
  ⟨⟨Vector.replicate 16 0x0ABC#16, rfl, fun _ h => absurd h (Nat.not_lt_zero _)⟩, by decide, by decide⟩

theorem test_witness_SoundTimerAndRedrawAreUnread :
    see (fun t => t.pc) (step (State.reset.withFetchWord 16 0xF018)) = some 0x202#16 := by decide

/-- The two ends: a jump to itself at the last fetchable address, and a key wait. -/
theorem test_witness_EndedProgramsStayPut :
    let s : State := State.withFetchWord { State.reset with pc := 0xFFE#16 } 16 0x1FFE
    let u : State := State.reset.withFetchWord 16 0xF10A
    s.fault = none ∧ s.pc.toNat ≤ 0xFFE ∧ decodeWord (BitVec.ofNat 16 s.wordAtPc) = some (.jp 0xFFE#12) ∧
      (0xFFE#12 : Addr).toNat = s.pc.toNat ∧ decodeWord (BitVec.ofNat 16 u.wordAtPc) = some (.ldVxK 1) ∧
      ∀ k : Reg, u.key[k] = false := by decide

theorem test_witness_CoreParametersGiveTheCore :
    see (fun t => t.pc) (step (State.reset.withFetchWord 16 0x6005)) = some 0x202#16 := by decide

/-- A STEP that completes and one that faults, under both values of PER_STEP_TICK_ON_FAULT. -/
theorem test_witness_TimerCouplingAddsOneTick :
    State.reset.fault = none ∧ stepUnder (perStep true) 0x6005 State.reset (fun t => t.fault) = some none ∧
      stepUnder (perStep false) 0x00EE State.reset (fun t => t.fault.isSome) = some true ∧
      (perStep true).timerCoupling = .perStep true ∧ (perStep false).timerCoupling = .perStep false ∧
      coreParams.timerCoupling = .decoupled := by decide

theorem test_witness_TickCountsDown :
    hostOf coreParams .step (State.reset.withFetchWord 16 0x6005) (fun r => r.2) = some (.stepOk none) := by decide

/-- The timers running, and LD V0, 0x05 at pc. -/
def countingState : State := State.withFetchWord { State.reset with DT := 3#8, ST := 1#8 } 16 0x6005

/-- Decoupled: two TICKs around a STEP that runs LD V0, 0x05, which writes neither timer. -/
theorem test_witness_TimersRunDownByTicks_decoupled :
    HostOp.init ∉ [HostOp.tick, .step, .tick] ∧ coreParams.timerCoupling = .decoupled ∧
      ∀ pre post u, [HostOp.tick, .step, .tick] = pre ++ .step :: post →
        hostRun coreParams pre countingState = .next u → ∀ x, ¬ u.Runs (.ldDtVx x) ∧ ¬ u.Runs (.ldStVx x) := by
  refine ⟨by decide, rfl, fun pre post u hsplit hrun x => ?_⟩
  have hpre : pre = [.tick] := by
    rcases pre with _ | ⟨a, _ | ⟨b, _ | ⟨c, l⟩⟩⟩ <;> simp_all
  subst hpre
  cases hrun
  have hd : decodeWord (BitVec.ofNat 16 countingState.tick.1.wordAtPc) = some (.ldImm 0 0x05#8) := by decide
  exact ⟨fun h => absurd (hd.symm.trans h.2.2) (by simp), fun h => absurd (hd.symm.trans h.2.2) (by simp)⟩

/-- Any coupling: the latch stops the STEP of the list. -/
theorem test_witness_TimersRunDownByTicks_latched :
    HostOp.init ∉ [HostOp.tick, .writeKeys 0x0001#16, .step, .tick] ∧ latchedState.fault ≠ none := by decide

/-- The longest image that fits; the next length is `test_witness_load_too_large_length`. -/
theorem test_witness_LoadCopiesTheImageOrNothing (b : Byte) :
    Memory.wf State.reset.mem ∧ (List.replicate 3584 b).length ≤ 3584 := ⟨wf_nil, by rw [List.length_replicate]⟩

theorem test_witness_HostPortsDoOnlyTheirPart :
    hostOf coreParams (.writeKeys 0x0001#16) State.reset (fun r => decide (r.1.key ≠ State.reset.key)) = some true ∧
      State.reset.redraw = true ∧ hostOf coreParams .clearRedraw State.reset (fun r => r.1.redraw) = some false ∧
      hostOf coreParams .init (withPixel 3 5 State.reset) (fun r => decide (r.1.fb ≠ (withPixel 3 5 State.reset).fb)) =
        some true := by decide

end Sys2Proof.Tests
end

/-! PROOFS. The state of the CORE (10_state.md): the call stack's dead entries (R29) and the moves of pc (R24). -/

namespace Sys2Proof.Machine

/-! ## What a taken fault answers -/

/-- Whatever raises a fault ends with the latch set. -/
theorem raiseFault_fault {i : Instr} {c : Fault} {a b : Word} {s t : State} (h : raiseFault i c a b s = .next t) :
    t.fault ≠ none := by
  cases h; simp

/-- So that a law of `execWith` under any parameter values is one of `exec`. -/
theorem exec_eq_execWith_core (i : Instr) (s : State) : exec i s = execWith coreParams i s := by
  cases i <;> rfl

/-! ## RET, CALL, and the key lines, case by case (R130, R132, R154, R221) -/

/-- RET pops to the instruction after the top entry. -/
theorem execRet_of_pos {s : State} (h : 0 < s.sp.val) : execRet s = .next (s.pop.jumpTo (s.top h + 2#16)) :=
  dif_pos h

/-- RET from an empty stack takes STACK_UNDERFLOW. -/
theorem execRet_of_empty {s : State} (h : ¬ 0 < s.sp.val) : execRet s = raiseFault .ret .stackUnderflow 0#16 0#16 s :=
  dif_neg h

/-- CALL pushes its own address and jumps. -/
theorem execCall_of_lt (nnn : Addr) {s : State} (h : s.sp.val < 16) :
    execCall nnn s = .next ((s.push h).jumpTo (addressOf nnn)) :=
  dif_pos h

/-- CALL on a full stack takes STACK_OVERFLOW. -/
theorem execCall_of_full (nnn : Addr) {s : State} (h : ¬ s.sp.val < 16) :
    execCall nnn s = raiseFault (.call nnn) .stackOverflow (addressOf nnn) 16#16 s :=
  dif_neg h

/-- A key-line lookup that answers reads the line of the number in V[x]. -/
theorem State.keyLine?_eq_some {s : State} {x : Reg} {b : Bool} (h : s.keyLine? x = some b) :
    ∃ k : Reg, k.val = (s.readV x).toNat ∧ s.key[k] = b := by
  unfold State.keyLine? at h
  split at h
  · next hlt => exact ⟨⟨_, hlt⟩, rfl, Option.some.inj h⟩
  · cases h

theorem lowestPressed_eq_none_iff {key : Vector Bool 16} : lowestPressed key = none ↔ ∀ k : Reg, key[k] = false := by
  simp [lowestPressed, List.find?_eq_none]

/-! ## Other contents of the call stack -/

/-- s with another stack pointer and other stack entries. -/
def State.setCallStack (s : State) (n : Fin 17) (st : Vector Word 16) : State := { s with sp := n, stack := st }

theorem State.skipIf_setCallStack (s : State) (b : Bool) (n : Fin 17) (st : Vector Word 16) :
    (s.setCallStack n st).skipIf b = (s.skipIf b).setCallStack n st := by
  cases b <;> rfl

theorem State.loadRegs_setCallStack (base : Nat) (rs : List Reg) (n : Fin 17) (st : Vector Word 16) : ∀ s : State,
    (s.setCallStack n st).loadRegs base rs = (s.loadRegs base rs).setCallStack n st := by
  induction rs with
  | nil => exact fun _ => rfl
  | cons r rs ih => exact fun s => ih (s.writeV r (readByte s.mem (base + r.val)))

@[simp] theorem State.setCallStack_mem (s : State) (n : Fin 17) (st : Vector Word 16) :
    (s.setCallStack n st).mem = s.mem := rfl
@[simp] theorem State.setCallStack_fb (s : State) (n : Fin 17) (st : Vector Word 16) :
    (s.setCallStack n st).fb = s.fb := rfl
@[simp] theorem State.setCallStack_key (s : State) (n : Fin 17) (st : Vector Word 16) :
    (s.setCallStack n st).key = s.key := rfl
@[simp] theorem State.setCallStack_fault (s : State) (n : Fin 17) (st : Vector Word 16) :
    (s.setCallStack n st).fault = s.fault := rfl
@[simp] theorem State.setCallStack_readV (s : State) (n : Fin 17) (st : Vector Word 16) (x : Reg) :
    (s.setCallStack n st).readV x = s.readV x := rfl
@[simp] theorem State.setCallStack_base (s : State) (n : Fin 17) (st : Vector Word 16) :
    (s.setCallStack n st).base = s.base := rfl
@[simp] theorem State.setCallStack_keyLine? (s : State) (n : Fin 17) (st : Vector Word 16) (x : Reg) :
    (s.setCallStack n st).keyLine? x = s.keyLine? x := rfl

@[simp] theorem fetch_setCallStack (s : State) (n : Fin 17) (st : Vector Word 16) :
    fetch (s.setCallStack n st) = fetch s := rfl

/-- DRW answers the same over any other call stack. -/
theorem drwWith_setCallStack {p : Params} {x y : Reg} {k : Nat} {s t : State} (h : drwWith p x y k s = .next t)
    (n : Fin 17) (st : Vector Word 16) : drwWith p x y k (s.setCallStack n st) = .next (t.setCallStack n st) := by
  simp only [drwWith, State.setCallStack_base, State.setCallStack_mem, State.setCallStack_readV,
    State.setCallStack_fb] at h ⊢
  split at h
  · next hb =>
    simp only [hb, if_true]
    split at h <;> cases h <;> rfl
  · next hb =>
    cases h
    exact if_neg hb

/-- Only RET and CALL read or write the call stack (the "read by" and "written by" columns of R20 for sp and stack):
any other instruction answers the same over any other stack, and leaves that stack as it is. -/
theorem exec_setCallStack {i : Instr} {s t : State} (hret : i ≠ .ret) (hcall : ∀ nnn, i ≠ .call nnn)
    (h : exec i s = .next t) (n : Fin 17) (st : Vector Word 16) :
    exec i (s.setCallStack n st) = .next (t.setCallStack n st) := by
  cases i with
  | ret => exact absurd rfl hret
  | call nnn => exact absurd rfl (hcall nnn)
  | drw x y k => exact drwWith_setCallStack h n st
  | seImm _ _ | sneImm _ _ | seReg _ _ | sneReg _ _ =>
    cases h; exact congrArg _ (State.skipIf_setCallStack ..)
  | skp x | sknp x =>
    simp only [exec, execSkp, execSknp, State.setCallStack_keyLine?] at h ⊢
    split at h <;> cases h
    · exact congrArg _ (State.skipIf_setCallStack ..)
    · rfl
  | ldVxK x =>
    simp only [exec, execLdVxK, State.setCallStack_key] at h ⊢
    split at h <;> cases h <;> rfl
  | ldBVx x | ldMemVx x | ldVxMem x =>
    simp only [exec, execLdBVx, execLdMemVx, execLdVxMem, State.setCallStack_base, State.loadRegs_setCallStack] at h ⊢
    split at h <;> cases h
    · next hb => exact if_pos hb
    · next hb => exact if_neg hb
  | _ => cases h; rfl

/-- An instruction other than RET and CALL keeps the call stack. -/
theorem exec_keeps_callStack {i : Instr} {s t : State} (hret : i ≠ .ret) (hcall : ∀ nnn, i ≠ .call nnn)
    (h : exec i s = .next t) : t.sp = s.sp ∧ t.stack = s.stack := by
  have hown : t = t.setCallStack s.sp s.stack := by
    have := h.symm.trans (exec_setCallStack hret hcall h s.sp s.stack)
    exact Host.Outcome.next.inj this
  rw [hown]
  exact ⟨rfl, rfl⟩

/-! ## Dead entries of the call stack (R29) -/

theorem State.sameLive_iff {s s' : State} : s.SameLive s' ↔ ∃ st : Vector Word 16, s' = s.setCallStack s.sp st ∧
    ∀ k : Fin 16, k.val < s.sp.val → st[k] = s.stack[k] :=
  Iff.rfl

/-- RET reads the top entry alone, which is live, and makes it dead. -/
theorem execRet_sameLive {s t : State} {st : Vector Word 16}
    (hlive : ∀ k : Fin 16, k.val < s.sp.val → st[k] = s.stack[k]) (h : execRet s = .next t) :
    ∃ t', execRet (s.setCallStack s.sp st) = .next t' ∧ t.SameLive t' := by
  by_cases hpos : 0 < s.sp.val
  · rw [execRet_of_pos hpos] at h
    cases h
    have htop : (s.setCallStack s.sp st).top hpos = s.top hpos := hlive ⟨s.sp.val - 1, by omega⟩ (by simp; omega)
    refine ⟨_, execRet_of_pos (s := s.setCallStack s.sp st) hpos, st, ?_, fun k hk => hlive k (by simp at hk; omega)⟩
    rw [htop]
    rfl
  · rw [execRet_of_empty hpos] at h
    cases h
    exact ⟨_, execRet_of_empty hpos, st, rfl, hlive⟩

/-- CALL reads no entry, and makes live the one it writes. -/
theorem execCall_sameLive {nnn : Addr} {s t : State} {st : Vector Word 16}
    (hlive : ∀ k : Fin 16, k.val < s.sp.val → st[k] = s.stack[k]) (h : execCall nnn s = .next t) :
    ∃ t', execCall nnn (s.setCallStack s.sp st) = .next t' ∧ t.SameLive t' := by
  by_cases hlt : s.sp.val < 16
  · rw [execCall_of_lt nnn hlt] at h
    cases h
    refine ⟨_, execCall_of_lt nnn (s := s.setCallStack s.sp st) hlt, st.set s.sp.val s.pc, rfl, fun k hk => ?_⟩
    simp only [State.jumpTo_sp, State.push_sp] at hk
    simp only [State.jumpTo_stack, State.push_stack, Fin.getElem_fin, Vector.getElem_set]
    split
    · rfl
    · exact hlive k (by omega)
  · rw [execCall_of_full nnn hlt] at h
    cases h
    exact ⟨_, execCall_of_full nnn hlt, st, rfl, hlive⟩

/-- No instruction reads a dead entry. -/
theorem exec_sameLive {i : Instr} {s s' t : State} (hs : s.SameLive s') (h : exec i s = .next t) :
    ∃ t', exec i s' = .next t' ∧ t.SameLive t' := by
  obtain ⟨st, rfl, hlive⟩ := State.sameLive_iff.1 hs
  by_cases hret : i = .ret
  · subst hret; exact execRet_sameLive hlive h
  by_cases hcall : ∃ nnn, i = .call nnn
  · obtain ⟨nnn, rfl⟩ := hcall; exact execCall_sameLive hlive h
  have hcall : ∀ nnn, i ≠ .call nnn := fun nnn e => hcall ⟨nnn, e⟩
  obtain ⟨hsp, hstack⟩ := exec_keeps_callStack hret hcall h
  refine ⟨_, exec_setCallStack hret hcall h s.sp st, State.sameLive_iff.2 ⟨st, by rw [hsp], ?_⟩⟩
  rw [hsp, hstack]
  exact hlive

/-- Neither the latch check nor the fetch nor the decode reads the stack. -/
theorem step_sameLive {s s' t : State} (hs : s.SameLive s') (h : step s = .next t) :
    ∃ t', step s' = .next t' ∧ t.SameLive t' := by
  obtain ⟨st, rfl, hlive⟩ := State.sameLive_iff.1 hs
  simp only [step, cycle, State.setCallStack_fault, fetch_setCallStack] at h ⊢
  split at h
  · cases h; exact ⟨_, rfl, hs⟩
  · split at h
    · cases h; exact ⟨_, rfl, st, rfl, hlive⟩
    · split at h
      · cases h; exact ⟨_, rfl, st, rfl, hlive⟩
      · exact exec_sameLive hs h

/-- A pop clears nothing. -/
theorem execRet_stack {s t : State} (h : execRet s = .next t) : t.stack = s.stack := by
  by_cases hpos : 0 < s.sp.val
  · rw [execRet_of_pos hpos] at h; cases h; rfl
  · rw [execRet_of_empty hpos] at h; cases h; rfl

/-- Settles O47: RET keeps the array, and every STEP carries agreement on the live entries along. -/
theorem deadStackEntriesAreUnread : Obligations.DeadStackEntriesAreUnread :=
  ⟨fun _ _ h => execRet_stack h, fun _ _ _ hs h => step_sameLive hs h⟩

/-! ## Where pc goes (R24) -/

/-- An instruction that faults leaves pc. -/
theorem exec_pc_of_fault {i : Instr} {s t : State} (hs : s.fault = none) (h : exec i s = .next t)
    (hf : t.fault ≠ none) : t.pc = s.pc := by
  rw [exec_eq_execWith_core] at h
  rcases execWith_cases coreParams i s with ⟨c, a, b, he⟩ | ⟨u, he, hu⟩
  · rw [he] at h; cases h; rfl
  · rw [he] at h; cases h; exact absurd (hu.fault.trans hs) hf

/-- CALL goes to its target. -/
theorem execCall_pc {nnn : Addr} {s t : State} (h : execCall nnn s = .next t) (hf : t.fault = none) :
    t.pc = addressOf nnn := by
  by_cases hlt : s.sp.val < 16
  · rw [execCall_of_lt nnn hlt] at h; cases h; rfl
  · rw [execCall_of_full nnn hlt] at h; exact absurd hf (raiseFault_fault h)

/-- RET goes past the address in the top entry. -/
theorem execRet_pc {s t : State} (h : execRet s = .next t) (hf : t.fault = none) :
    ∃ k : Fin 16, k.val + 1 = s.sp.val ∧ t.pc = s.stack[k] + 2#16 := by
  by_cases hpos : 0 < s.sp.val
  · rw [execRet_of_pos hpos] at h
    cases h
    exact ⟨⟨s.sp.val - 1, by omega⟩, Nat.sub_add_cancel hpos, rfl⟩
  · rw [execRet_of_empty hpos] at h; exact absurd hf (raiseFault_fault h)

/-- LD Vx, K waits at its own address while no key is pressed, and goes on with any. -/
theorem execLdVxK_pc {x : Reg} {s t : State} (h : execLdVxK x s = .next t) :
    t.pc = (if ∀ k : Reg, s.key[k] = false then s.pc else s.pc + 2#16) := by
  unfold execLdVxK at h
  split at h
  · next k hk =>
    have hpressed : ¬ ∀ k : Reg, s.key[k] = false := by rw [← lowestPressed_eq_none_iff, hk]; simp
    cases h
    exact (if_neg hpressed).symm
  · next hnone =>
    cases h
    exact (if_pos (lowestPressed_eq_none_iff.1 hnone)).symm

/-- A draw that passes its checks goes on to the next instruction. -/
theorem drwWith_pc {p : Params} {x y : Reg} {n : Nat} {s t : State} (h : drwWith p x y n s = .next t)
    (hf : t.fault = none) : t.pc = s.pc + 2#16 := by
  simp only [drwWith] at h
  split at h
  · split at h
    · exact absurd hf (raiseFault_fault h)
    · cases h; rfl
  · exact absurd hf (raiseFault_fault h)

/-- Settles O46: the fault clause is `exec_pc_of_fault`; the others go instruction by instruction. -/
theorem pcMovesAsTheRulesSay : Obligations.PcMovesAsTheRulesSay := by
  refine ⟨rfl, fun i s t hs h => ⟨exec_pc_of_fault hs h, fun hf => ?_⟩⟩
  cases i with
  | jp nnn => cases h; exact addressOf_toNat nnn
  | call nnn => exact (congrArg BitVec.toNat (execCall_pc h hf)).trans (addressOf_toNat nnn)
  | jpV0 nnn =>
    cases h
    have hn := addressOf_toNat nnn
    have hv := State.wideV_toNat s 0
    simp only [State.jumpTo_pc, BitVec.toNat_add]
    omega
  | ret => exact execRet_pc h hf
  | seImm _ _ | sneImm _ _ | seReg _ _ | sneReg _ _ => cases h; simp
  | skp x | sknp x =>
    simp only [exec, execSkp, execSknp] at h
    split at h
    · next b hb =>
      obtain ⟨k, hk, rfl⟩ := State.keyLine?_eq_some hb
      cases h
      refine ⟨k, hk, (State.skipIf_pc ..).trans ?_⟩
      cases s.key[k] <;> rfl
    · exact absurd hf (raiseFault_fault h)
  | ldVxK x => exact execLdVxK_pc h
  | drw x y n => exact drwWith_pc h hf
  | ldBVx x | ldMemVx x | ldVxMem x =>
    simp only [exec, execLdBVx, execLdMemVx, execLdVxMem] at h
    split at h
    · cases h; simp
    · exact absurd hf (raiseFault_fault h)
  | _ => cases h; rfl

end Sys2Proof.Machine

/-! PROOFS. Memory (20_memory.md): the blocks from I are checked as a whole (R51, R53). -/

namespace Sys2Proof.Machine

/-! ## The address check of a block, for the four instructions that access one -/

/-- A rejected block is the whole answer: no instruction that accesses one does anything else first. -/
theorem exec_of_block_rejected {i : Instr} {n : Nat} {s : State} (hi : blockLength i = some n)
    (hb : blockAccepted s.base n = false) : exec i s = raiseMemory i s := by
  have hb : ¬ blockAccepted s.base n = true := by simp [hb]
  cases i with
  | drw _ _ _ | ldBVx _ | ldMemVx _ | ldVxMem _ => cases hi; exact if_neg hb
  | _ => cases hi

/-- A draw whose rows are in memory is drawn, or is refused by the screen check. -/
theorem drwWith_of_accepted {p : Params} {x y : Reg} {n : Nat} {s : State} (hb : blockAccepted s.base n = true) :
    drwWith p x y n s = .next (drawnState p x y n s) ∨
      ∃ a b, drwWith p x y n s = raiseFault (.drw x y n) .screenOutOfRange a b s := by
  simp only [drwWith, hb, if_true]
  split
  · exact .inr ⟨_, _, rfl⟩
  · exact .inl rfl

/-- An accepted block leaves the latch alone, but for the screen fault of DRW. -/
theorem exec_of_block_accepted {i : Instr} {n : Nat} {s : State} (hi : blockLength i = some n)
    (hb : blockAccepted s.base n = true) :
    ∃ t, exec i s = .next t ∧
      (t.fault = s.fault ∨ ∃ r, t.fault = some r ∧ r.cause = Fault.screenOutOfRange.code) := by
  cases i with
  | drw x y k =>
    cases hi
    rcases drwWith_of_accepted (p := coreParams) hb with h | ⟨a, b, h⟩
    · exact ⟨_, h, .inl (by simp)⟩
    · exact ⟨_, h, .inr ⟨_, rfl, rfl⟩⟩
  | ldBVx _ | ldMemVx _ => cases hi; exact ⟨_, if_pos hb, .inl rfl⟩
  | ldVxMem x => cases hi; exact ⟨_, if_pos hb, .inl (State.loadRegs_fault ..)⟩
  | _ => cases hi

/-- Settles O39: the block is checked first, and an accepted one raises no memory fault. -/
theorem blocksAreCheckedWhole : Obligations.BlocksAreCheckedWhole := by
  refine fun i n s hi => ⟨fun hn hout => ?_, fun _ hin hclear => ?_⟩
  · have hb : blockAccepted s.base n = false := blockAccepted_of_gt (by omega) hout
    rw [exec_of_block_rejected hi hb, raiseMemory_eq]
  · have hb : blockAccepted s.base n = true := blockAccepted_of_le (.inr hin)
    obtain ⟨t, ht, hfault⟩ := exec_of_block_accepted hi hb
    refine ⟨t, ht, fun r hr => ?_⟩
    rcases hfault with h | ⟨r', h, hcause⟩
    · exact absurd (hr.symm.trans (h.trans hclear)) (by simp)
    · cases hr.symm.trans h
      rw [hcause]
      decide

end Sys2Proof.Machine

/-! PROOFS. Encoding (30_encoding.md): the decoder against the opcode map (R85, R86), and the faults of a STEP's fetch
and decode (R83, R85). -/

namespace Sys2Proof

/-! ## A decoded word is the word of its instruction (R81, R86, R87) -/

theorem wordA_of_class {op : Word} {k : Nat} (h : (opClass op).toNat = k) :
    wordA (BitVec.ofNat 4 k) (fieldNNN op) = op := by
  rw [← h, BitVec.ofNat_toNat, BitVec.setWidth_eq, word_eq_wordA]

theorem wordR_of_class {op : Word} {k : Nat} (h : (opClass op).toNat = k) :
    wordR (BitVec.ofNat 4 k) (fieldX op) (fieldNN op) = op := by
  rw [← h, BitVec.ofNat_toNat, BitVec.setWidth_eq, word_eq_wordR]

theorem wordP_of_class {op : Word} {k : Nat} (h : (opClass op).toNat = k) :
    wordP (BitVec.ofNat 4 k) (fieldX op) (fieldY op) (fieldN op) = op := by
  rw [← h, BitVec.ofNat_toNat, BitVec.setWidth_eq, word_eq_wordP]

/-- The operation of class 8 stands for its selector. -/
theorem encode_of_decodeClass8 {x y : Reg} {n : BitVec 4} {i : Instr} (h : decodeClass8 x y n = some i) :
    encode i = wordP 0x8#4 x y n := by
  unfold decodeClass8 at h
  split_ifs at h <;> cases h <;> subst n <;> rfl

/-- The operation of class F stands for its selector. -/
theorem encode_of_decodeClassF {x : Reg} {nn : Byte} {i : Instr} (h : decodeClassF x nn = some i) :
    encode i = wordR 0xF#4 x nn := by
  unfold decodeClassF at h
  split_ifs at h <;> cases h <;> subst nn <;> rfl

/-- The decoder loses no bit of the word: class by class, the format of R81 puts it together again. -/
theorem encode_of_decodeWord {op : Word} {i : Instr} (h : decodeWord op = some i) : encode i = op := by
  unfold decodeWord at h
  split at h
  case h_1 => split_ifs at h with hop hop <;> cases h <;> exact hop.symm
  case h_2 hk | h_3 hk | h_11 hk | h_12 hk => cases h; exact wordA_of_class hk
  case h_4 hk | h_5 hk | h_7 hk | h_8 hk | h_13 hk => cases h; exact wordR_of_class hk
  case h_6 hk | h_10 hk =>
    split_ifs at h with hn
    cases h
    have hop := wordP_of_class hk
    rwa [hn] at hop
  case h_9 hk => exact (encode_of_decodeClass8 h).trans (wordP_of_class hk)
  case h_14 hk => cases h; simpa [encode] using wordP_of_class hk
  case h_15 hk =>
    have hop := wordR_of_class hk
    split_ifs at h with hnn hnn <;> cases h <;> rwa [hnn] at hop
  case h_16 hk => exact (encode_of_decodeClassF h).trans (wordR_of_class hk)
  case h_17 => cases h

/-! ## A word of a row decodes to an instruction of that row (R85, R88) -/

theorem opClass_eq_of_maskA {op p : Word} (h : op &&& 0xF000#16 = p) : opClass op = opClass p := by
  rw [← h, ← word_eq_wordA op, wordA_mask, opClass_wordA, opClass_wordA]

theorem fields_eq_of_maskP {op p : Word} (h : op &&& 0xF00F#16 = p) :
    opClass op = opClass p ∧ fieldN op = fieldN p := by
  rw [← h, ← word_eq_wordP op, wordP_mask]
  simp

theorem fields_eq_of_maskR {op p : Word} (h : op &&& 0xF0FF#16 = p) :
    opClass op = opClass p ∧ fieldNN op = fieldNN p := by
  rw [← h, ← word_eq_wordR op, wordR_mask]
  simp

/-- The fixed digits of a row, which its mask keeps, are all the decoder looks at to choose the operation. -/
theorem decodeWord_row_of_covered {op : Word} (i : Instr) (h : op &&& i.row.mask = i.row.pattern) :
    (decodeWord op).map Instr.row = some i.row := by
  cases i with
  | cls | ret =>
    have hop : op &&& BitVec.allOnes 16 = _ := h
    rw [BitVec.and_allOnes] at hop
    subst op
    rfl
  | jp _ | call _ | seImm _ _ | sneImm _ _ | ldImm _ _ | addImm _ _ | ldI _ | jpV0 _ | rnd _ _ | drw _ _ _ =>
    simp only [Instr.row] at h ⊢
    rw [decodeWord, opClass_eq_of_maskA h]
    rfl
  | seReg _ _ | ldReg _ _ | orReg _ _ | andReg _ _ | xorReg _ _ | addReg _ _ | sub _ _ | shr _ _ | subn _ _ | shl _ _
  | sneReg _ _ =>
    simp only [Instr.row] at h ⊢
    obtain ⟨hclass, hn⟩ := fields_eq_of_maskP h
    rw [decodeWord, hclass, hn]
    rfl
  | skp _ | sknp _ | ldVxDt _ | ldVxK _ | ldDtVx _ | ldStVx _ | addIVx _ | ldFVx _ | ldBVx _ | ldMemVx _ | ldVxMem _ =>
    simp only [Instr.row] at h ⊢
    obtain ⟨hclass, hnn⟩ := fields_eq_of_maskR h
    rw [decodeWord, hclass, hnn]
    rfl

/-- A row of the table that covers a word is the row of what the word decodes to; so no two rows cover one word. -/
theorem exists_decodeWord_of_covered {op : Word} {r : OpcodeRow} (hr : r ∈ opcodeTable)
    (h : op &&& r.mask = r.pattern) : ∃ i, decodeWord op = some i ∧ i.row = r := by
  obtain ⟨e, -, rfl⟩ := List.mem_map.1 hr
  exact Option.map_eq_some_iff.1 (decodeWord_row_of_covered e h)

end Sys2Proof

namespace Sys2Proof.Laws.TableRow

/-- The family whole: every instruction has its row in the table, and its word lies in that row. -/
theorem row_mem_and_covers_encode : ∀ i : Instr, Statement i
  | .cls => cls
  | .ret => ret
  | .jp nnn => jp nnn
  | .call nnn => call nnn
  | .seImm x nn => seImm x nn
  | .sneImm x nn => sneImm x nn
  | .seReg x y => seReg x y
  | .ldImm x nn => ldImm x nn
  | .addImm x nn => addImm x nn
  | .ldReg x y => ldReg x y
  | .orReg x y => orReg x y
  | .andReg x y => andReg x y
  | .xorReg x y => xorReg x y
  | .addReg x y => addReg x y
  | .sub x y => sub x y
  | .shr x y => shr x y
  | .subn x y => subn x y
  | .shl x y => shl x y
  | .sneReg x y => sneReg x y
  | .ldI nnn => ldI nnn
  | .jpV0 nnn => jpV0 nnn
  | .rnd x nn => rnd x nn
  | .drw x y n => drw x y n
  | .skp x => skp x
  | .sknp x => sknp x
  | .ldVxDt x => ldVxDt x
  | .ldVxK x => ldVxK x
  | .ldDtVx x => ldDtVx x
  | .ldStVx x => ldStVx x
  | .addIVx x => addIVx x
  | .ldFVx x => ldFVx x
  | .ldBVx x => ldBVx x
  | .ldMemVx x => ldMemVx x
  | .ldVxMem x => ldVxMem x

end Sys2Proof.Laws.TableRow

namespace Sys2Proof.Machine

/-! ## The decoder and the table (R85) -/

/-- What a word decodes to has its row in the table, and the word lies in that row. -/
theorem row_of_decodeWord {op : Word} {i : Instr} (h : decodeWord op = some i) :
    i.row ∈ opcodeTable ∧ op &&& i.row.mask = i.row.pattern := by
  obtain ⟨hmem, hcovers⟩ := Laws.TableRow.row_mem_and_covers_encode i
  rw [encode_of_decodeWord h] at hcovers
  exact ⟨hmem, eq_of_beq hcovers⟩

/-- No other row of the table covers a word that decodes. -/
theorem row_unique_of_decodeWord {op : Word} {i : Instr} (h : decodeWord op = some i) {r : OpcodeRow}
    (hr : r ∈ opcodeTable) (hop : op &&& r.mask = r.pattern) : r = i.row := by
  obtain ⟨j, hj, rfl⟩ := exists_decodeWord_of_covered hr hop
  cases hj.symm.trans h
  rfl

/-! ## The faults of fetch and decode (R83, R85) -/

/-- A pc that cannot be fetched from: the STEP only latches FETCH_OUT_OF_RANGE, with the lowest rejected address. -/
theorem step_of_unfetchable {s : State} (hclear : s.fault = none) (hpc : s.pc.toNat > 0xFFE) :
    step s = .next (s.latched 1 0x0000 (if s.pc.toNat > 0xFFF then s.pc.toNat else s.pc.toNat + 1) 0) := by
  simp only [step, cycle, hclear, fetch_of_gt hpc]
  split_ifs <;> simp [State.takeFault, State.latched, Fault.code, BitVec.ofNat_add]

/-- A word that decodes to nothing: the STEP only latches DECODE_FAULT, with the word. -/
theorem step_of_undecodable {s : State} (hclear : s.fault = none) (hpc : s.pc.toNat ≤ 0xFFE)
    (hword : decodeWord (BitVec.ofNat 16 s.wordAtPc) = none) : step s = .next (s.latched 2 s.wordAtPc 0 0) := by
  simp [step, cycle, hclear, fetch_of_le hpc, hword, State.takeFault, State.latched, Fault.code]

/-- Settles O3: the row of the decoded instruction covers the word and is the only one; with no row, the STEP faults. -/
theorem decoderSelectsTheUniqueRow : Obligations.DecoderSelectsTheUniqueRow := by
  refine fun op => ⟨fun i hi => ?_, fun hnone => ⟨fun r hr hop => ?_, fun s hclear hpc hword => ?_⟩⟩
  · obtain ⟨hmem, hcovered⟩ := row_of_decodeWord hi
    exact ⟨hmem, hcovered, fun r hr hop => row_unique_of_decodeWord hi hr hop⟩
  · obtain ⟨i, hi, -⟩ := exists_decodeWord_of_covered hr hop
    cases hnone.symm.trans hi
  · rw [← hword]
    exact step_of_undecodable hclear hpc (by simpa [hword] using hnone)

/-- Settles O7: below the bound `fetch_of_le`, above it the fetch fault. -/
theorem fetchReadsBigEndianOrFaults : Obligations.FetchReadsBigEndianOrFaults :=
  fun _ => ⟨fetch_of_le, step_of_unfetchable⟩

end Sys2Proof.Machine

/-! PROOFS. Display (40_display.md): clearing the screen (R110). -/

namespace Sys2Proof.Machine

/-! ## CLS (R110) -/

/-- 00E0 names no operand, so one word stands for CLS and is read back as it. -/
theorem encodedAs_cls : EncodedAs .cls 0x00E0 := ⟨rfl, rfl⟩

/-- Showing a picture and going on touches the display and pc alone, whatever the picture is. -/
theorem frame_showFb_advance (s : State) (picture : Framebuffer) :
    Frame [] [.fb, .redraw] s (s.showFb picture).advance := by
  apply Frame.intro <;> simp

/-- CLS shows the cleared picture and goes on; it has no check that could fail. -/
theorem exec_cls (s : State) : exec .cls s = .next (s.showFb clearedFb).advance := rfl

/-- Settles O15: CLS shows `clearedFb`, whose every pixel is off, and `showFb` sets redraw whatever was shown before. -/
theorem clsClearsTheScreen : Obligations.ClsClearsTheScreen :=
  ⟨encodedAs_cls, fun s =>
    ⟨(s.showFb clearedFb).advance, exec_cls s, pixelAt_clearedFb, State.showFb_redraw s clearedFb,
      State.advance_pc (s.showFb clearedFb), frame_showFb_advance s clearedFb⟩⟩

end Sys2Proof.Machine

/-! PROOFS. Control transfer (41_control_transfer.md): RET, JP, CALL and JP V0 (R130 to R133). -/

namespace Sys2Proof.Machine

/-! ## Words of format A, and faults as latched records -/

/-- A word of format A with a number written out: it stands for i where the decoder reads i from the format. -/
theorem encodedAs_of_wordA {i : Instr} {c : BitVec 4} {nnn : Addr} {w : Nat} (hencode : encode i = wordA c nnn)
    (hdecode : decodeWord (wordA c nnn) = some i) (hw : c.toNat * 0x1000 + nnn.toNat = w) : EncodedAs i w := by
  have hword : wordA c nnn = BitVec.ofNat 16 w := wordA_eq_ofNat hw
  exact ⟨hencode.trans hword, hword ▸ hdecode⟩

/-- A raised fault is the latched record of its cause code, of the instruction's word and of its two numbers. -/
theorem raiseFault_eq_latched {i : Instr} {w info0 info1 : Nat} {a b : Word} (c : Fault) (s : State)
    (hw : encode i = BitVec.ofNat 16 w) (ha : a = BitVec.ofNat 16 info0) (hb : b = BitVec.ofNat 16 info1) :
    raiseFault i c a b s = .next (s.latched c.code.toNat w info0 info1) := by
  simp [raiseFault, State.takeFault, State.latched, hw, ha, hb]

/-! ## Frames of jumps and of the stack operations -/

theorem Frame.refl (regs : List Reg) (parts : List Part) (s : State) : Frame regs parts s s := by
  apply Frame.intro <;> simp

/-- A jump adds nothing to what has changed: no frame speaks of pc. -/
theorem Frame.jumpTo {regs : List Reg} {parts : List Part} {s t : State} (h : Frame regs parts s t) (w : Word) :
    Frame regs parts s (t.jumpTo w) := by
  obtain ⟨hregs, hparts⟩ := h
  refine ⟨hregs, fun p hp => ?_⟩
  have hkept : p.Kept s t := hparts p hp
  cases p <;> exact hkept

theorem frame_pop (s : State) : Frame [] [.sp] s s.pop := by
  apply Frame.intro <;> simp

theorem frame_push (s : State) (h : s.sp.val < 16) : Frame [] [.sp, .stack] s (s.push h) := by
  apply Frame.intro <;> simp

/-! ## What the stack operations read and write (R28) -/

/-- The top entry is the one just below sp. -/
theorem State.top_eq_getElem {s : State} {k : Fin 16} (hk : k.val + 1 = s.sp.val) (h : 0 < s.sp.val) :
    s.top h = s.stack[k] :=
  getElem_congr_idx (by omega)

/-- A push writes pc into the entry at sp, and into no other. -/
theorem State.push_stack_getElem (s : State) (h : s.sp.val < 16) (j : Fin 16) :
    (s.push h).stack[j] = if s.sp.val = j.val then s.pc else s.stack[j] :=
  Vector.getElem_set (hi := h) ..

/-! ## RET (R130) -/

/-- 00EE names no operand, so one word stands for RET and is read back as it. -/
theorem encodedAs_ret : EncodedAs .ret 0x00EE := ⟨rfl, rfl⟩

/-- RET from an empty stack latches STACK_UNDERFLOW, with no info. -/
theorem execRet_underflow {s : State} (h : s.sp.val = 0) : execRet s = .next (s.latched 4 0x00EE 0 0) :=
  (execRet_of_empty (by omega)).trans (raiseFault_eq_latched .stackUnderflow s rfl rfl rfl)

/-- Settles O19: `execRet_of_pos` pops the entry at sp − 1 and keeps the array; an empty stack underflows. -/
theorem retPopsTheStack : Obligations.RetPopsTheStack := by
  refine ⟨encodedAs_ret, fun s => ⟨fun k hk => ?_, execRet_underflow⟩⟩
  have hpos : 0 < s.sp.val := by omega
  have hsp : (s.pop.jumpTo (s.top hpos + 2#16)).sp.val = k.val := Nat.sub_eq_of_eq_add hk.symm
  have hpc : s.top hpos + 2#16 = s.stack[k] + 2#16 := by rw [State.top_eq_getElem hk]
  exact ⟨_, execRet_of_pos hpos, hsp, hpc, (frame_pop s).jumpTo _⟩

/-! ## JP (R131) -/

theorem encodedAs_jp (nnn : Addr) : EncodedAs (.jp nnn) (0x1000 + nnn.toNat) :=
  encodedAs_of_wordA (c := 0x1#4) rfl (by simp [decodeWord]) (by simp)

/-- Settles O20: JP has no check, and its target is NNN as a 16-bit number. -/
theorem jpJumps : Obligations.JpJumps := fun nnn s =>
  ⟨encodedAs_jp nnn, s.jumpTo (addressOf nnn), rfl, addressOf_toNat nnn, (Frame.refl _ _ s).jumpTo _⟩

/-! ## CALL (R132) -/

theorem encodedAs_call (nnn : Addr) : EncodedAs (.call nnn) (0x2000 + nnn.toNat) :=
  encodedAs_of_wordA (c := 0x2#4) rfl (by simp [decodeWord]) (by simp)

/-- CALL on a full stack latches STACK_OVERFLOW, with its target and the stack's capacity. -/
theorem execCall_overflow (nnn : Addr) {s : State} (h : s.sp.val = 16) :
    execCall nnn s = .next (s.latched 3 (0x2000 + nnn.toNat) nnn.toNat 16) :=
  (execCall_of_full nnn (by omega)).trans
    (raiseFault_eq_latched .stackOverflow s (encodedAs_call nnn).1 (addressOf_eq_ofNat nnn) rfl)

/-- Settles O21: the push comes before the jump, while pc is still the CALL's own address. -/
theorem callPushesItsOwnAddress : Obligations.CallPushesItsOwnAddress := by
  refine fun nnn s => ⟨encodedAs_call nnn, fun k hk => ?_, execCall_overflow nnn⟩
  have hlt : s.sp.val < 16 := by omega
  have hpushed : (s.push hlt).stack[k] = s.pc := (State.push_stack_getElem s hlt k).trans (if_pos hk.symm)
  have hothers : ∀ j : Fin 16, j ≠ k → (s.push hlt).stack[j] = s.stack[j] := fun j hj =>
    (State.push_stack_getElem s hlt j).trans (if_neg (by omega))
  exact ⟨_, execCall_of_lt nnn hlt, hpushed, hothers, rfl, addressOf_toNat nnn, (frame_push s hlt).jumpTo _⟩

/-! ## JP V0 (R133) -/

theorem encodedAs_jpV0 (nnn : Addr) : EncodedAs (.jpV0 nnn) (0xB000 + nnn.toNat) :=
  encodedAs_of_wordA (c := 0xB#4) rfl (by simp [decodeWord]) (by simp)

/-- A 12-bit address and a byte are too small for their sum to wrap at 16 bits. -/
theorem addressOf_add_wideV_toNat (nnn : Addr) (s : State) (x : Reg) :
    (addressOf nnn + s.wideV x).toNat = nnn.toNat + (s.readV x).toNat := by
  rw [BitVec.toNat_add, addressOf_toNat, State.wideV_toNat]
  omega

/-- Settles O22: JP V0 has no check, and its target is a sum that does not wrap. -/
theorem jpV0AddsV0 : Obligations.JpV0AddsV0 := fun nnn s =>
  ⟨encodedAs_jpV0 nnn, s.jumpTo (addressOf nnn + s.wideV 0), rfl, addressOf_add_wideV_toNat nnn s 0,
    (Frame.refl _ _ s).jumpTo _⟩

end Sys2Proof.Machine

/-! PROOFS. Skips (42_skips.md): SE, SNE, SKP and SKNP (R150 to R155). -/

namespace Sys2Proof.Machine

/-! ## Words of formats R and P -/

/-- A word of format R or K with a number written out, as `encodedAs_of_wordA`. -/
theorem encodedAs_of_wordR {i : Instr} {c : BitVec 4} {x : Reg} {nn : Byte} {w : Nat}
    (hencode : encode i = wordR c x nn) (hdecode : decodeWord (wordR c x nn) = some i)
    (hw : c.toNat * 0x1000 + x.val * 0x100 + nn.toNat = w) : EncodedAs i w := by
  have hword : wordR c x nn = BitVec.ofNat 16 w := wordR_eq_ofNat hw
  exact ⟨hencode.trans hword, hword ▸ hdecode⟩

/-- A word of format P or D with a number written out, as `encodedAs_of_wordA`. -/
theorem encodedAs_of_wordP {i : Instr} {c : BitVec 4} {x y : Reg} {n : BitVec 4} {w : Nat}
    (hencode : encode i = wordP c x y n) (hdecode : decodeWord (wordP c x y n) = some i)
    (hw : c.toNat * 0x1000 + x.val * 0x100 + y.val * 0x10 + n.toNat = w) : EncodedAs i w := by
  have hword : wordP c x y n = BitVec.ofNat 16 w := wordP_eq_ofNat hw
  exact ⟨hencode.trans hword, hword ▸ hdecode⟩

/-! ## Where a skip goes, and what it leaves -/

/-- Taken or not, a skip touches pc alone. -/
theorem frame_skipIf (s : State) (taken : Bool) : Frame [] [] s (s.skipIf taken) := by
  apply Frame.intro <;> simp

/-- A skip taken when the condition holds (SE, SKP). -/
theorem State.skipIf_pc_of_iff (s : State) {taken : Bool} {c : Prop} [Decidable c] (h : taken = true ↔ c) :
    (s.skipIf taken).pc = if c then s.pc + 4#16 else s.pc + 2#16 :=
  (State.skipIf_pc s taken).trans (if_congr h rfl rfl)

/-- A skip taken when the condition fails (SNE, SKNP). -/
theorem State.skipIf_pc_of_iff_not (s : State) {taken : Bool} {c : Prop} [Decidable c] (h : taken = true ↔ ¬ c) :
    (s.skipIf taken).pc = if c then s.pc + 2#16 else s.pc + 4#16 :=
  (State.skipIf_pc_of_iff s h).trans (ite_not ..)

/-! ## SE and SNE with an immediate (R150, R151) -/

theorem encodedAs_seImm (x : Reg) (nn : Byte) : EncodedAs (.seImm x nn) (0x3000 + x.val * 0x100 + nn.toNat) :=
  encodedAs_of_wordR (c := 0x3#4) rfl (by simp [decodeWord]) (by simp)

theorem encodedAs_sneImm (x : Reg) (nn : Byte) : EncodedAs (.sneImm x nn) (0x4000 + x.val * 0x100 + nn.toNat) :=
  encodedAs_of_wordR (c := 0x4#4) rfl (by simp [decodeWord]) (by simp)

/-- Settles O24: both are a `skipIf`, SE on the equality of VX and NN and SNE on its failure. -/
theorem immediateSkips : Obligations.ImmediateSkips := fun x nn s =>
  ⟨encodedAs_seImm x nn, encodedAs_sneImm x nn,
    ⟨s.skipIf (s.readV x == nn), rfl, s.skipIf_pc_of_iff beq_iff_eq, frame_skipIf s _⟩,
    ⟨s.skipIf (s.readV x != nn), rfl, s.skipIf_pc_of_iff_not bne_iff_ne, frame_skipIf s _⟩⟩

/-! ## SE and SNE of two registers (R152, R153) -/

theorem encodedAs_seReg (x y : Reg) : EncodedAs (.seReg x y) (0x5000 + x.val * 0x100 + y.val * 0x10) :=
  encodedAs_of_wordP (c := 0x5#4) (n := 0x0#4) rfl (by simp [decodeWord]) (by simp)

theorem encodedAs_sneReg (x y : Reg) : EncodedAs (.sneReg x y) (0x9000 + x.val * 0x100 + y.val * 0x10) :=
  encodedAs_of_wordP (c := 0x9#4) (n := 0x0#4) rfl (by simp [decodeWord]) (by simp)

/-- Settles O25: as with an immediate, the second operand being VY. -/
theorem registerSkips : Obligations.RegisterSkips := fun x y s =>
  ⟨encodedAs_seReg x y, encodedAs_sneReg x y,
    ⟨s.skipIf (s.readV x == s.readV y), rfl, s.skipIf_pc_of_iff beq_iff_eq, frame_skipIf s _⟩,
    ⟨s.skipIf (s.readV x != s.readV y), rfl, s.skipIf_pc_of_iff_not bne_iff_ne, frame_skipIf s _⟩⟩

/-! ## SKP and SKNP (R154, R155) -/

theorem encodedAs_skp (x : Reg) : EncodedAs (.skp x) (0xE09E + x.val * 0x100) :=
  encodedAs_of_wordR (c := 0xE#4) (nn := 0x9E#8) rfl (by simp [decodeWord]) (by simp; omega)

theorem encodedAs_sknp (x : Reg) : EncodedAs (.sknp x) (0xE0A1 + x.val * 0x100) :=
  encodedAs_of_wordR (c := 0xE#4) (nn := 0xA1#8) rfl (by simp [decodeWord]) (by simp; omega)

/-- With VX naming key k, SKP skips on the line of k. -/
theorem execSkp_of_key {s : State} {x k : Reg} (h : k.val = (s.readV x).toNat) :
    execSkp x s = .next (s.skipIf s.key[k]) := by
  simp only [execSkp, State.keyLine?_of_lt h]

/-- With VX naming key k, SKNP skips on the negated line of k. -/
theorem execSknp_of_key {s : State} {x k : Reg} (h : k.val = (s.readV x).toNat) :
    execSknp x s = .next (s.skipIf !s.key[k]) := by
  simp only [execSknp, State.keyLine?_of_lt h]

/-- The key fault latches the instruction's word and the key number. -/
theorem raiseKey_eq_latched {i : Instr} {w : Nat} (x : Reg) (s : State) (hw : encode i = BitVec.ofNat 16 w) :
    raiseKey i x s = .next (s.latched 6 w (s.readV x).toNat 0) :=
  raiseFault_eq_latched .keyIndexOutOfRange s hw (State.wideV_eq_ofNat s x) rfl

/-- SKP of a number that names no key line takes the key fault. -/
theorem execSkp_of_noKey {s : State} {x : Reg} (h : (s.readV x).toNat > 15) : execSkp x s = raiseKey (.skp x) x s := by
  simp only [execSkp, State.keyLine?_of_ge h]

/-- SKNP of a number that names no key line takes the key fault. -/
theorem execSknp_of_noKey {s : State} {x : Reg} (h : (s.readV x).toNat > 15) :
    execSknp x s = raiseKey (.sknp x) x s := by
  simp only [execSknp, State.keyLine?_of_ge h]

/-- Settles O26: VX names a key line, and both are a `skipIf` on that line; or it names none, and both latch. -/
theorem keySkips : Obligations.KeySkips := by
  refine fun x s => ⟨encodedAs_skp x, encodedAs_sknp x, fun k hk => ⟨?skp, ?sknp⟩, fun hgt => ⟨?skpFault, ?sknpFault⟩⟩
  case skp => exact ⟨_, execSkp_of_key hk, s.skipIf_pc_of_iff Iff.rfl, frame_skipIf s _⟩
  case sknp =>
    have hnot : (!s.key[k]) = true ↔ ¬ s.key[k] = true := by rw [Bool.not_eq_true', Bool.not_eq_true]
    exact ⟨_, execSknp_of_key hk, s.skipIf_pc_of_iff_not hnot, frame_skipIf s _⟩
  case skpFault => exact (execSkp_of_noKey hgt).trans (raiseKey_eq_latched x s (encodedAs_skp x).1)
  case sknpFault => exact (execSknp_of_noKey hgt).trans (raiseKey_eq_latched x s (encodedAs_sknp x).1)

end Sys2Proof.Machine

/-! PROOFS. Register loads and ALU (43_alu.md): the loads, the logical operations, and the operations with a flag in
both operand orders (R170 to R180). -/

namespace Sys2Proof.Machine

/-! ## Words of class 8 -/

/-- A word of class 8 with its number written out: the selector N alone picks the instruction, whatever X and Y are. -/
theorem encodedAs_of_decodeClass8 {i : Instr} {x y : Reg} {n : BitVec 4} (hencode : encode i = wordP 0x8#4 x y n)
    (hdecode : decodeClass8 x y n = some i) : EncodedAs i (0x8000 + n.toNat + x.val * 0x100 + y.val * 0x10) :=
  encodedAs_of_wordP hencode (by simpa [decodeWord] using hdecode) (by simp; omega)

/-! ## Frames of what touches registers alone -/

theorem Frame.of_registers {regs : List Reg} {s t : State} {W : Vector Byte 16} (ht : t = { s with V := W })
    (hregs : ∀ r, r ∉ regs → t.readV r = s.readV r) : Frame regs [] s t := by
  subst ht
  exact ⟨hregs, fun p _ => by cases p <;> simp [Part.Kept]⟩

theorem frame_writeV (x : Reg) (b : Byte) (s : State) : Frame [x] [] s (s.writeV x b) :=
  .of_registers rfl fun r hr => by simp [List.ne_of_not_mem_cons hr]

theorem frame_aluWithFlag (o : VfOperandOrder) (f : Byte → Byte → Bool) (v : Byte → Byte → Byte) (x y : Reg)
    (s : State) : Frame [x, 15] [] s (aluWithFlag o f v x y s) :=
  .of_registers (aluWithFlag_eq o f v x y s) fun r hr => by
    obtain ⟨hx, hf⟩ : r ≠ x ∧ r ≠ 15 := by simpa using hr
    exact aluWithFlag_readV_other o f v x y s hx hf

theorem frame_aluClearFlag (v : Byte → Byte → Byte) (x y : Reg) (s : State) :
    Frame [x, 15] [] s (aluClearFlag v x y s) :=
  .of_registers rfl fun r hr => by
    obtain ⟨hx, hf⟩ : r ≠ x ∧ r ≠ 15 := by simpa using hr
    simp [aluClearFlag, hx, hf]

/-! ## The loads and the immediate add (R170, R171, R172) -/

theorem State.writeV_readV_self (s : State) (x : Reg) (b : Byte) : (s.writeV x b).readV x = b :=
  (s.writeV_readV x x b).trans (if_pos rfl)

/-- Settles O27: each is one `writeV`, and that write alone decides what VX holds and what is left. -/
theorem registerLoads : Obligations.RegisterLoads := fun x y nn s =>
  ⟨encodedAs_of_wordR (c := 0x6#4) rfl (by simp [decodeWord]) (by simp),
    encodedAs_of_wordR (c := 0x7#4) rfl (by simp [decodeWord]) (by simp),
    encodedAs_of_decodeClass8 (n := 0x0#4) rfl rfl,
    ⟨(s.writeV x nn).advance, rfl, s.writeV_readV_self x nn, rfl, (frame_writeV x nn s).jumpTo _⟩,
    ⟨(s.writeV x (s.readV x + nn)).advance, rfl,
      (congrArg BitVec.toNat (s.writeV_readV_self x _)).trans (BitVec.toNat_add ..), rfl,
      (frame_writeV x _ s).jumpTo _⟩,
    ⟨(s.writeV x (s.readV y)).advance, rfl, s.writeV_readV_self x _, rfl, (frame_writeV x _ s).jumpTo _⟩⟩

/-! ## The logical operations (R173, R174, R175) -/

/-- A logical operation that works bit by bit: VX gets the bits, unless it is VF, which is cleared after it. -/
theorem aluClearFlag_outcome {v : Byte → Byte → Byte} {g : Bool → Bool → Bool}
    (hv : ∀ p q b, (v p q).getLsbD b = g (p.getLsbD b) (q.getLsbD b)) (x y : Reg) (s : State) :
    ∃ t, (.next (aluClearFlag v x y s).advance : Result) = .next t ∧
      (x ≠ 15 → ∀ b, (t.readV x).getLsbD b = g ((s.readV x).getLsbD b) ((s.readV y).getLsbD b)) ∧
      t.readV 15 = 0x00#8 ∧ t.pc = s.pc + 2#16 ∧ Frame [x, 15] [] s t := by
  refine ⟨_, rfl, fun hx b => ?bits, ?cleared, rfl, (frame_aluClearFlag v x y s).jumpTo _⟩
  case bits => simp [aluClearFlag, hx, hv]
  case cleared => simp [aluClearFlag]

/-- Settles O28: each is an `aluClearFlag` whose value is taken bit by bit. -/
theorem logicalOperationsClearVF : Obligations.LogicalOperationsClearVF := fun x y s =>
  ⟨encodedAs_of_decodeClass8 (n := 0x1#4) rfl rfl, encodedAs_of_decodeClass8 (n := 0x2#4) rfl rfl,
    encodedAs_of_decodeClass8 (n := 0x3#4) rfl rfl,
    aluClearFlag_outcome (fun _ _ _ => BitVec.getLsbD_or) x y s,
    aluClearFlag_outcome (fun _ _ _ => BitVec.getLsbD_and) x y s,
    aluClearFlag_outcome (fun _ _ _ => BitVec.getLsbD_xor) x y s⟩

/-! ## Both operand orders of an operation with a flag (R9), as numbers

`v` computes the result and `f` the flag; `value` is what `v` does to the numbers its operands stand for. -/

theorem State.writeFlag_readV_toNat (s : State) (b : Bool) (r : Reg) :
    ((s.writeFlag b).readV r).toNat = if r = 15 then b.toNat else (s.readV r).toNat := by
  rw [State.writeFlag_readV]
  split
  · cases b <;> rfl
  · rfl

section
variable {f : Byte → Byte → Bool} {v : Byte → Byte → Byte} {value : Nat → Nat → Nat}

/-- Sequential: an operand that is VF has already the flag when the result is computed. -/
theorem aluWithFlag_sequential_result (hv : ∀ p q, (v p q).toNat = value p.toNat q.toNat) (x y : Reg) (s : State) :
    ((aluWithFlag .sequential f v x y s).readV x).toNat =
      value (if x = 15 then (f (s.readV x) (s.readV y)).toNat else (s.readV x).toNat)
        (if y = 15 then (f (s.readV x) (s.readV y)).toNat else (s.readV y).toNat) := by
  rw [aluWithFlag_sequential, State.writeV_readV_self, hv, State.writeFlag_readV_toNat, State.writeFlag_readV_toNat]

theorem aluWithFlag_sequential_flag {x : Reg} (hx : x ≠ 15) (y : Reg) (s : State) :
    ((aluWithFlag .sequential f v x y s).readV 15).toNat = (f (s.readV x) (s.readV y)).toNat := by
  rw [aluWithFlag_sequential, State.writeV_readV, if_neg hx.symm, State.writeFlag_readV_toNat, if_pos rfl]

theorem aluWithFlag_latched_result (hv : ∀ p q, (v p q).toNat = value p.toNat q.toNat) {x : Reg} (hx : x ≠ 15)
    (y : Reg) (s : State) :
    ((aluWithFlag .latched f v x y s).readV x).toNat = value (s.readV x).toNat (s.readV y).toNat := by
  rw [aluWithFlag_latched, State.writeFlag_readV_toNat, if_neg hx, State.writeV_readV_self, hv]

theorem aluWithFlag_latched_flag (x y : Reg) (s : State) :
    ((aluWithFlag .latched f v x y s).readV 15).toNat = (f (s.readV x) (s.readV y)).toNat := by
  rw [aluWithFlag_latched, State.writeFlag_readV_toNat, if_pos rfl]

/-- The CORE's order of an operation on VX and VY whose flag is c, by which of the two is VF. Where both are, the result
is that of c and c. -/
theorem aluWithFlag_sequential_outcome (hv : ∀ p q, (v p q).toNat = value p.toNat q.toNat) {x y : Reg} {s : State}
    {c both : Nat} (hflag : (f (s.readV x) (s.readV y)).toNat = c) (hboth : value c c = both) :
    ∃ t, (.next (aluWithFlag .sequential f v x y s).advance : Result) = .next t ∧
      (x ≠ 15 → y ≠ 15 → (t.readV x).toNat = value (s.readV x).toNat (s.readV y).toNat ∧ (t.readV 15).toNat = c) ∧
      (x = 15 → y ≠ 15 → (t.readV 15).toNat = value c (s.readV y).toNat) ∧
      (x ≠ 15 → y = 15 → (t.readV x).toNat = value (s.readV x).toNat c ∧ (t.readV 15).toNat = c) ∧
      (x = 15 → y = 15 → (t.readV 15).toNat = both) ∧ t.pc = s.pc + 2#16 ∧ Frame [x, 15] [] s t := by
  have hresult := aluWithFlag_sequential_result (f := f) hv x y s
  rw [hflag] at hresult
  have hvf : x ≠ 15 → ((aluWithFlag .sequential f v x y s).readV 15).toNat = c := fun hx =>
    (aluWithFlag_sequential_flag hx y s).trans hflag
  refine ⟨_, rfl, fun hx hy => ⟨?neither, hvf hx⟩, fun hx hy => ?onlyX, fun hx hy => ⟨?onlyY, hvf hx⟩,
    fun hx hy => ?both, rfl, (frame_aluWithFlag _ f v x y s).jumpTo _⟩
  case neither => rwa [if_neg hx, if_neg hy] at hresult
  case onlyX => subst hx; rwa [if_pos rfl, if_neg hy] at hresult
  case onlyY => rwa [if_neg hx, if_pos hy] at hresult
  case both => subst hx; rwa [if_pos rfl, if_pos hy, hboth] at hresult

/-- The latched order of an operation whose flag is c: VF gets c last, and nothing else depends on it. -/
theorem aluWithFlag_latched_outcome (hv : ∀ p q, (v p q).toNat = value p.toNat q.toNat) {x y : Reg} {s : State}
    {c : Nat} {o : VfOperandOrder} (ho : o = .latched) (hflag : (f (s.readV x) (s.readV y)).toNat = c) :
    ∃ t, (.next (aluWithFlag o f v x y s).advance : Result) = .next t ∧
      (x ≠ 15 → (t.readV x).toNat = value (s.readV x).toNat (s.readV y).toNat) ∧ (t.readV 15).toNat = c ∧
      t.pc = s.pc + 2#16 ∧ Frame [x, 15] [] s t := by
  subst ho
  exact ⟨_, rfl, fun hx => aluWithFlag_latched_result hv hx y s, (aluWithFlag_latched_flag x y s).trans hflag, rfl,
    (frame_aluWithFlag _ f v x y s).jumpTo _⟩

/-- The CORE's order of an operation on VX alone: it stands in the model as the operation on VX and VX. -/
theorem aluWithFlag_sequential_outcome_unary {value : Nat → Nat} (hv : ∀ p q, (v p q).toNat = value p.toNat) {x : Reg}
    {s : State} {c onVF : Nat} (hflag : (f (s.readV x) (s.readV x)).toNat = c) (hVF : value c = onVF) :
    ∃ t, (.next (aluWithFlag .sequential f v x x s).advance : Result) = .next t ∧
      (x ≠ 15 → (t.readV x).toNat = value (s.readV x).toNat ∧ (t.readV 15).toNat = c) ∧
      (x = 15 → (t.readV 15).toNat = onVF) ∧ t.pc = s.pc + 2#16 ∧ Frame [x, 15] [] s t := by
  obtain ⟨t, ht, hneither, -, -, hboth, hpc, hframe⟩ :=
    aluWithFlag_sequential_outcome (value := fun p _ => value p) hv hflag hVF
  exact ⟨t, ht, fun hx => hneither hx hx, fun hx => hboth hx hx, hpc, hframe⟩

end

/-! ## Results and flags as numbers (R176 to R180, R182) -/

theorem byte_sub_toNat (p q : Byte) : (p - q).toNat = (p.toNat + 256 - q.toNat) % 256 := by
  rw [BitVec.toNat_sub]; omega

theorem byte_shiftRight_one_toNat (p : Byte) : (p >>> 1).toNat = p.toNat / 2 := by
  simp [Nat.shiftRight_eq_div_pow]

theorem byte_shiftLeft_one_toNat (p : Byte) : (p <<< 1).toNat = 2 * p.toNat % 256 := by
  simp [Nat.shiftLeft_eq, Nat.mul_comm]

theorem carryOut_toNat (p q : Byte) : (carryOut p q).toNat = if p.toNat + q.toNat > 255 then 1 else 0 := by
  by_cases h : p.toNat + q.toNat > 255 <;> simp [carryOut, h]

theorem notBorrow_toNat (p q : Byte) : (notBorrow p q).toNat = if q.toNat > p.toNat then 0 else 1 := by
  by_cases h : q.toNat > p.toNat <;> simp [notBorrow, h]

theorem bitOutRight_toNat (p : Byte) : (bitOutRight p).toNat = p.toNat % 2 :=
  (Nat.toNat_testBit p.toNat 0).trans (by simp)

theorem bitOutLeft_toNat (p : Byte) : (bitOutLeft p).toNat = p.toNat / 128 :=
  (Nat.toNat_testBit p.toNat 7).trans (by omega)

/-! ## ADD, SUB and SUBN of two registers (R176, R177, R179) -/

/-- Settles O29: the carry of the old operands is the flag, and of a carry added to itself nothing wraps. -/
theorem addRegAddsWithCarry : Obligations.AddRegAddsWithCarry := by
  rintro x y s _ _ c rfl rfl hc
  have hvalue : ∀ p q : Byte, (p + q).toNat = (p.toNat + q.toNat) % 256 := BitVec.toNat_add
  have hflag : (carryOut (s.readV x) (s.readV y)).toNat = c := (carryOut_toNat ..).trans hc.symm
  have hle : c ≤ 1 := hflag ▸ Bool.toNat_le _
  exact ⟨encodedAs_of_decodeClass8 (n := 0x4#4) rfl rfl,
    aluWithFlag_sequential_outcome (value := fun a b => (a + b) % 256) hvalue hflag (by omega),
    fun p hp => aluWithFlag_latched_outcome (value := fun a b => (a + b) % 256) hvalue hp hflag⟩

/-- Settles O30: the not-borrow bit of the old operands is the flag, and taken from itself it leaves 0. -/
theorem subSubtractsWithNotBorrow : Obligations.SubSubtractsWithNotBorrow := by
  rintro x y s _ _ b rfl rfl hb
  have hflag : (notBorrow (s.readV x) (s.readV y)).toNat = b := (notBorrow_toNat ..).trans hb.symm
  exact ⟨encodedAs_of_decodeClass8 (n := 0x5#4) rfl rfl,
    aluWithFlag_sequential_outcome (value := fun a d => (a + 256 - d) % 256) byte_sub_toNat hflag (by omega),
    fun p hp => aluWithFlag_latched_outcome (value := fun a d => (a + 256 - d) % 256) byte_sub_toNat hp hflag⟩

/-- Settles O32: SUB with the operands exchanged, in the flag and in the result. -/
theorem subnSubtractsReversed : Obligations.SubnSubtractsReversed := by
  rintro x y s _ _ g rfl rfl hg
  have hvalue := fun p q => byte_sub_toNat q p
  have hflag : (notBorrow (s.readV y) (s.readV x)).toNat = g := (notBorrow_toNat ..).trans hg.symm
  exact ⟨encodedAs_of_decodeClass8 (n := 0x7#4) rfl rfl,
    aluWithFlag_sequential_outcome (value := fun a d => (d + 256 - a) % 256) hvalue hflag (by omega),
    fun p hp => aluWithFlag_latched_outcome (value := fun a d => (d + 256 - a) % 256) hvalue hp hflag⟩

/-! ## SHR and SHL (R178, R180) -/

/-- Settles O31: SHR halves, and a bit shifted out into VF and halved in its turn is 0. -/
theorem shrShiftsRight : Obligations.ShrShiftsRight := by
  rintro x y s _ rfl
  have hvalue := fun p (_ : Byte) => byte_shiftRight_one_toNat p
  have hflag := bitOutRight_toNat (s.readV x)
  exact ⟨encodedAs_of_decodeClass8 (n := 0x6#4) rfl rfl,
    aluWithFlag_sequential_outcome_unary (value := fun a => a / 2) hvalue hflag (by omega),
    fun p hp => aluWithFlag_latched_outcome (value := fun a _ => a / 2) hvalue hp hflag⟩

/-- Settles O33: SHL doubles, and a bit shifted out into VF and doubled in its turn does not wrap. -/
theorem shlShiftsLeft : Obligations.ShlShiftsLeft := by
  rintro x y s _ rfl
  have hvalue := fun p (_ : Byte) => byte_shiftLeft_one_toNat p
  have hflag := bitOutLeft_toNat (s.readV x)
  exact ⟨encodedAs_of_decodeClass8 (n := 0xE#4) rfl rfl,
    aluWithFlag_sequential_outcome_unary (value := fun a => 2 * a % 256) hvalue hflag (by omega),
    fun p hp => aluWithFlag_latched_outcome (value := fun a _ => 2 * a % 256) hvalue hp hflag⟩

end Sys2Proof.Machine

/-! PROOFS. Index register and memory (44_index_memory.md): the loads of I, and the blocks stored at and loaded from I
(R200 to R205). -/

namespace Sys2Proof.Machine

/-! ## Words of class F -/

/-- A word of class F with its number written out: the selector NN alone picks the instruction, whatever X is. -/
theorem encodedAs_of_decodeClassF {i : Instr} {x : Reg} {nn : Byte} (h : decodeClassF x nn = some i) :
    EncodedAs i (0xF000 + nn.toNat + x.val * 0x100) :=
  encodedAs_of_wordR (encode_of_decodeClassF h) (by simpa [decodeWord] using h) (by simp; omega)

/-! ## Frames of what writes I, memory, and the registers of a block -/

/-- A write to I adds I to what has changed. -/
theorem Frame.writeI {regs : List Reg} {parts : List Part} {s t : State} (h : Frame regs parts s t) (w : Word) :
    Frame regs (.I :: parts) s (t.writeI w) := by
  obtain ⟨hregs, hparts⟩ := h
  refine ⟨hregs, fun p hp => ?_⟩
  obtain ⟨hI, hrest⟩ : p ≠ .I ∧ p ∉ parts := by simpa using hp
  have hkept : p.Kept s t := hparts p hrest
  cases p with
  | I => exact absurd rfl hI
  | _ => exact hkept

theorem frame_writeI (s : State) (w : Word) : Frame [] [.I] s (s.writeI w) := (Frame.refl _ _ s).writeI w

theorem frame_writeMem (s : State) (m : Memory) : Frame [] [.mem] s (s.writeMem m) := by
  apply Frame.intro <;> simp

theorem frame_loadRegs {rs regs : List Reg} (hsub : rs ⊆ regs) (base : Nat) (s : State) :
    Frame regs [] s (s.loadRegs base rs) := by
  obtain ⟨hread, hrest⟩ := State.loadRegs_spec base rs s
  exact .of_registers hrest fun r hr => (hread r).trans (if_neg fun hmem => hr (hsub hmem))

/-! ## LD I, ADD I and LD F (R200, R201, R202) -/

theorem encodedAs_ldI (nnn : Addr) : EncodedAs (.ldI nnn) (0xA000 + nnn.toNat) :=
  encodedAs_of_wordA (c := 0xA#4) rfl (by simp [decodeWord]) (by simp)

/-- The sum of I and a register is taken mod 2^16, with no other trace of a carry. -/
theorem I_add_wideV_toNat (s : State) (x : Reg) :
    (s.I + s.wideV x).toNat = (s.I.toNat + (s.readV x).toNat) % 65536 := by
  rw [BitVec.toNat_add, State.wideV_toNat]

/-- Settles O35: each is one `writeI`, of a number that the operand laws give. -/
theorem indexLoads : Obligations.IndexLoads := fun nnn x s =>
  ⟨encodedAs_ldI nnn, encodedAs_of_decodeClassF (nn := 0x1E#8) rfl, encodedAs_of_decodeClassF (nn := 0x29#8) rfl,
    ⟨(s.writeI (addressOf nnn)).advance, rfl, addressOf_toNat nnn, rfl, (frame_writeI s _).jumpTo _⟩,
    ⟨(s.writeI (s.I + s.wideV x)).advance, rfl, I_add_wideV_toNat s x, rfl, (frame_writeI s _).jumpTo _⟩,
    ⟨(s.writeI (glyphAddress (s.readV x))).advance, rfl, glyphAddress_toNat _, rfl, (frame_writeI s _).jumpTo _⟩⟩

/-! ## A block from I that fits in memory, and one that does not (R53) -/

theorem execLdBVx_of_fits {x : Reg} {s : State} (h : s.I.toNat + 2 ≤ 0xFFF) :
    execLdBVx x s = .next (s.writeMem (writeBlock s.mem s.I.toNat (decimalDigits (s.readV x)))).advance :=
  if_pos (blockAccepted_of_le (.inr h))

theorem execLdMemVx_of_fits {x : Reg} {s : State} (h : s.I.toNat + x.val ≤ 0xFFF) : execLdMemVx x s =
    .next ((s.writeMem (writeBlock s.mem s.I.toNat ((regsUpTo x).map s.readV))).bumpI x).advance :=
  if_pos (blockAccepted_of_le (.inr h))

theorem execLdVxMem_of_fits {x : Reg} {s : State} (h : s.I.toNat + x.val ≤ 0xFFF) :
    execLdVxMem x s = .next ((s.loadRegs s.I.toNat (regsUpTo x)).bumpI x).advance :=
  if_pos (blockAccepted_of_le (.inr h))

/-- A block of n + 1 bytes that leaves memory: only the latch is set, with the word written out. -/
theorem exec_latched_of_block_outside {i : Instr} {n w : Nat} {s : State} (hi : blockLength i = some (n + 1))
    (hword : EncodedAs i w) (hout : s.I.toNat + n > 0xFFF) :
    exec i s = .next (s.latched 5 w (max s.I.toNat 0x1000) 0) :=
  (exec_of_block_rejected hi (blockAccepted_of_gt n.succ_ne_zero hout)).trans
    (raiseFault_eq_latched .memoryOutOfRange s hword.1 rfl rfl)

/-! ## LD B (R203) -/

theorem encodedAs_ldBVx (x : Reg) : EncodedAs (.ldBVx x) (0xF033 + x.val * 0x100) :=
  encodedAs_of_decodeClassF (nn := 0x33#8) rfl

@[simp] theorem decimalDigits_length (v : Byte) : (decimalDigits v).length = 3 := rfl

/-- Each digit is a number below 10, which a byte holds. -/
theorem decimalDigits_toNat (v : Byte) : (decimalDigits v)[0].toNat = v.toNat / 100 ∧
    (decimalDigits v)[1].toNat = v.toNat / 10 % 10 ∧ (decimalDigits v)[2].toNat = v.toNat % 10 := by
  simp [decimalDigits]; omega

/-- Settles O36: `writeBlock` stores `decimalDigits`, byte by byte, and reads outside the block see what was there. -/
theorem bcdStoresDecimalDigits : Obligations.BcdStoresDecimalDigits := by
  refine fun x s hwf => ⟨encodedAs_ldBVx x, fun hfits => ?_,
    exec_latched_of_block_outside (n := 2) rfl (encodedAs_ldBVx x)⟩
  obtain ⟨hhundreds, htens, hones⟩ := decimalDigits_toNat (s.readV x)
  have hread : ∀ k (hk : k < 3), (readByte (writeBlock s.mem s.I.toNat (decimalDigits (s.readV x)))
      (s.I.toNat + k)).toNat = (decimalDigits (s.readV x))[k].toNat := fun _ hk =>
    congrArg BitVec.toNat (readByte_writeBlock_inside _ hwf.sorted hk)
  exact ⟨_, execLdBVx_of_fits hfits, (hread 0 (by omega)).trans hhundreds, (hread 1 (by omega)).trans htens,
    (hread 2 (by omega)).trans hones, fun a ha => readByte_writeBlock_outside _ hwf.sorted (by simp; omega), rfl,
    (frame_writeMem s _).jumpTo _⟩

/-! ## LD [I], Vx (R204) -/

theorem encodedAs_ldMemVx (x : Reg) : EncodedAs (.ldMemVx x) (0xF055 + x.val * 0x100) :=
  encodedAs_of_decodeClassF (nn := 0x55#8) rfl

/-- Settles O37: byte k of the stored block is V[k], reads outside it see what was there, and I does not wrap. -/
theorem storeRegistersBlock : Obligations.StoreRegistersBlock := by
  refine fun x s hwf => ⟨encodedAs_ldMemVx x, fun hfits => ?_,
    exec_latched_of_block_outside rfl (encodedAs_ldMemVx x)⟩
  refine ⟨_, execLdMemVx_of_fits hfits, fun k hk => ?inside, fun a ha => ?outside, State.bumpI_toNat hfits, rfl,
    ((frame_writeMem s _).writeI _).jumpTo _⟩
  case inside =>
    have hlt : k.val < ((regsUpTo x).map s.readV).length := by simp; omega
    exact (readByte_writeBlock_inside _ hwf.sorted hlt).trans (storedBytes_getElem s x k hlt)
  case outside => exact readByte_writeBlock_outside _ hwf.sorted (by simp; omega)

/-! ## LD Vx, [I] (R205) -/

theorem encodedAs_ldVxMem (x : Reg) : EncodedAs (.ldVxMem x) (0xF065 + x.val * 0x100) :=
  encodedAs_of_decodeClassF (nn := 0x65#8) rfl

/-- Settles O38: `loadRegs_readV` says what each register holds, up to x and above it, and I does not wrap. -/
theorem loadRegistersBlock : Obligations.LoadRegistersBlock := by
  refine fun x s => ⟨encodedAs_ldVxMem x, fun hfits => ?_,
    exec_latched_of_block_outside rfl (encodedAs_ldVxMem x)⟩
  have hread := s.loadRegs_readV s.I.toNat x
  have hI : ((s.loadRegs s.I.toNat (regsUpTo x)).bumpI x).I.toNat = s.I.toNat + x.val + 1 := by
    rw [State.bumpI_toNat (by simpa using hfits), State.loadRegs_I]
  have hpc : ((s.loadRegs s.I.toNat (regsUpTo x)).bumpI x).advance.pc = s.pc + 2#16 := by simp
  exact ⟨_, execLdVxMem_of_fits hfits, fun k hk => (hread k).trans (if_pos hk),
    fun k hk => (hread k).trans (if_neg (Fin.not_le.2 hk)), hI, hpc,
    ((frame_loadRegs (fun r _ => List.mem_finRange r) s.I.toNat s).writeI _).jumpTo _⟩

end Sys2Proof.Machine

/-! PROOFS. Timers and key wait (45_timers_keywait.md): the moves between VX and the timers, and LD Vx, K (R220 to
R223). -/

namespace Sys2Proof.Machine

/-! ## Writes to the timers, and the tone of a TICK (R222, R223, R261) -/

theorem frame_writeDT (s : State) (b : Byte) : Frame [] [.DT] s (s.writeDT b) := by
  apply Frame.intro <;> simp

theorem frame_writeST (s : State) (b : Byte) : Frame [] [.ST] s (s.writeST b) := by
  apply Frame.intro <;> simp

/-- A TICK gives a tone exactly when it finds ST at the number 1. -/
theorem State.tick_tone (s : State) : s.tick.2 = decide (s.ST.toNat = 1) :=
  decide_eq_decide.2 BitVec.toNat_inj.symm

/-- Settles O43: each is one write, `writeV`, `writeDT` or `writeST`, and the TICK after FX18 finds in ST what that
write put there. -/
theorem timerRegisterMoves : Obligations.TimerRegisterMoves := fun x s =>
  ⟨encodedAs_of_decodeClassF (nn := 0x07#8) rfl, encodedAs_of_decodeClassF (nn := 0x15#8) rfl,
    encodedAs_of_decodeClassF (nn := 0x18#8) rfl,
    ⟨(s.writeV x s.DT).advance, rfl, s.writeV_readV_self x s.DT, rfl, (frame_writeV x s.DT s).jumpTo _⟩,
    ⟨(s.writeDT (s.readV x)).advance, rfl, rfl, rfl, (frame_writeDT s _).jumpTo _⟩,
    ⟨(s.writeST (s.readV x)).advance, rfl, rfl, State.tick_tone _, rfl, (frame_writeST s _).jumpTo _⟩⟩

/-! ## LD Vx, K (R221) -/

theorem execLdVxK_of_lowest (x : Reg) {s : State} {k : Reg} (hk : s.key[k] = true)
    (hlow : ∀ j : Reg, j < k → s.key[j] = false) :
    execLdVxK x s = .next (s.writeV x (BitVec.ofNat 8 k.val)).advance := by
  rw [execLdVxK, lowestPressed_eq_some hk hlow]

theorem execLdVxK_of_noKey (x : Reg) {s : State} (h : ∀ k : Reg, s.key[k] = false) : execLdVxK x s = .next s := by
  rw [execLdVxK, lowestPressed_eq_none h]

/-- The number of a key fits in a byte. -/
theorem keyByte_toNat (k : Reg) : (BitVec.ofNat 8 k.val).toNat = k.val :=
  (BitVec.toNat_ofNat ..).trans (Nat.mod_eq_of_lt (by omega))

/-- Settles O44: `lowestPressed` finds the lowest pressed key, whose number one `writeV` puts in VX, or finds none. -/
theorem keyWaitTakesTheLowestKey : Obligations.KeyWaitTakesTheLowestKey := fun x s =>
  ⟨encodedAs_of_decodeClassF (nn := 0x0A#8) rfl,
    fun k hk hlow => ⟨(s.writeV x (BitVec.ofNat 8 k.val)).advance, execLdVxK_of_lowest x hk hlow,
      (congrArg BitVec.toNat (s.writeV_readV_self x _)).trans (keyByte_toNat k), rfl, (frame_writeV x _ s).jumpTo _⟩,
    execLdVxK_of_noKey x⟩

end Sys2Proof.Machine

/-! PROOFS. Faults (60_exceptions.md): which fault a STEP raises (R242, R250), and what it changes (R240). -/

namespace Sys2Proof.Machine

/-! ## The fault table of R242: the checks of DRW and of the blocks -/

/-- The block check of the table fails where the block leaves memory, with the one record there is. -/
theorem expectedMemoryFault_eq_some {s : State} {n : Nat} {f : Nat × Nat × Nat} (h : expectedMemoryFault s n = some f) :
    (n ≠ 0 ∧ s.I.toNat + n - 1 > 0xFFF) ∧ f = (5, max s.I.toNat 0x1000, 0) := by
  unfold expectedMemoryFault at h
  split at h
  · next hout => exact ⟨hout, (Option.some.inj h).symm⟩
  · cases h

theorem expectedMemoryFault_eq_none {s : State} {n : Nat} (h : expectedMemoryFault s n = none) :
    n = 0 ∨ s.I.toNat + n - 1 ≤ 0xFFF := by
  unfold expectedMemoryFault at h
  split at h
  · cases h
  · omega

/-- The table looks at the bits of a sprite by row and then by column. -/
theorem rowThenColumn_sorted (n columns : Nat) :
    ((List.range n).flatMap fun r => (List.range columns).map fun c => (r, c)).Pairwise bitBefore := by
  rw [List.pairwise_flatMap]
  refine ⟨fun r _ => ?_, List.pairwise_lt_range.imp fun hlt p hp q hq => ?_⟩
  · exact List.pairwise_map.2 (List.pairwise_lt_range.imp fun hlt => .inr ⟨rfl, hlt⟩)
  · obtain ⟨c, -, rfl⟩ := List.mem_map.1 hp
    obtain ⟨d, -, rfl⟩ := List.mem_map.1 hq
    exact .inl hlt

/-- A set bit of the sprite is one of those the table looks at. -/
theorem mem_rowThenColumn_of_offGridBit {s : State} {columns n r c : Nat} {x y : Reg}
    (h : s.offGridBit columns x y n r c = true) :
    (r, c) ∈ (List.range n).flatMap fun r => (List.range columns).map fun c => (r, c) := by
  simp only [State.offGridBit, State.spriteBit, Bool.and_eq_true, decide_eq_true_eq] at h
  obtain ⟨⟨⟨hr, hc⟩, -⟩, -⟩ := h
  exact List.mem_flatMap.2 ⟨r, List.mem_range.2 hr, List.mem_map.2 ⟨c, List.mem_range.2 hc, rfl⟩⟩

/-- What the table finds is off the grid, and every other such bit comes after it. -/
theorem firstOffGrid_eq_some {s : State} {x y : Reg} {n r c : Nat} (h : firstOffGrid s x y n = some (r, c)) :
    s.offGridBit 8 x y n r c = true ∧
      ∀ r' c', s.offGridBit 8 x y n r' c' = true → r < r' ∨ (r = r' ∧ c ≤ c') := by
  obtain ⟨hrc, before, after, hsplit, hbefore⟩ := List.find?_eq_some_iff_append.1 h
  refine ⟨hrc, fun r' c' hbit => ?_⟩
  have hmem := mem_rowThenColumn_of_offGridBit hbit
  have hsorted := rowThenColumn_sorted n 8
  rw [hsplit] at hmem hsorted
  obtain ⟨-, hafter, -⟩ := List.pairwise_append.1 hsorted
  rcases List.mem_append.1 hmem with hm | hm
  · have := hbefore _ hm
    simp [hbit] at this
  · rcases List.mem_cons.1 hm with heq | hm
    · cases heq; exact .inr ⟨rfl, le_rfl⟩
    · exact ((List.pairwise_cons.1 hafter).1 _ hm).imp id fun ⟨hr, hc⟩ => ⟨hr, hc.le⟩

theorem firstOffGrid_eq_none {s : State} {x y : Reg} {n : Nat} (h : firstOffGrid s x y n = none) (r c : Nat) :
    s.offGridBit 8 x y n r c = false := by
  by_contra hbit
  have hbit : s.offGridBit 8 x y n r c = true := by simpa using hbit
  exact List.find?_eq_none.1 h _ (mem_rowThenColumn_of_offGridBit hbit) hbit

/-! ## An instruction against the fault table (R242, R250) -/

/-- The block check comes first in each of the four instructions that access a block, and latches its record. -/
theorem exec_of_expectedMemoryFault {i : Instr} {s : State} {n w : Nat} {f : Nat × Nat × Nat}
    (hi : blockLength i = some n) (hw : encode i = BitVec.ofNat 16 w) (hf : expectedMemoryFault s n = some f) :
    exec i s = .next (s.latched f.1 w f.2.1 f.2.2) := by
  obtain ⟨⟨hn, hout⟩, rfl⟩ := expectedMemoryFault_eq_some hf
  exact (exec_of_block_rejected hi (blockAccepted_of_gt hn hout)).trans
    (raiseFault_eq_latched .memoryOutOfRange s hw rfl rfl)

/-- DRW inside memory takes the screen fault of the first bit off the grid. -/
theorem exec_drw_of_firstOffGrid {x y : Reg} {n w r c : Nat} {s : State}
    (hw : encode (.drw x y n) = BitVec.ofNat 16 w) (hmem : expectedMemoryFault s n = none)
    (hfirst : firstOffGrid s x y n = some (r, c)) :
    exec (.drw x y n) s = .next (s.latched 7 w ((s.readV x).toNat + c) ((s.readV y).toNat + r)) := by
  obtain ⟨hrc, hleast⟩ := firstOffGrid_eq_some hfirst
  refine (drwWith_offGrid (p := coreParams) (expectedMemoryFault_eq_none hmem) rfl hrc hleast).trans ?_
  simp only [State.latched, BitVec.ofNat_toNat, BitVec.setWidth_eq, hw]

/-- An instruction that fails a check of the table latches the record of the first check it fails. -/
theorem exec_of_expectedInstrFault {i : Instr} {s : State} {w : Nat} {f : Nat × Nat × Nat}
    (hw : encode i = BitVec.ofNat 16 w) (hf : expectedInstrFault s i = some f) :
    exec i s = .next (s.latched f.1 w f.2.1 f.2.2) := by
  cases i with
  | ret =>
    obtain ⟨hsp, ⟨⟩⟩ := Option.ite_none_right_eq_some.1 hf
    exact (execRet_of_empty (by omega)).trans (raiseFault_eq_latched .stackUnderflow s hw rfl rfl)
  | call nnn =>
    obtain ⟨hsp, ⟨⟩⟩ := Option.ite_none_right_eq_some.1 hf
    exact (execCall_of_full nnn (by omega)).trans
      (raiseFault_eq_latched .stackOverflow s hw (addressOf_eq_ofNat nnn) rfl)
  | skp x =>
    obtain ⟨hgt, ⟨⟩⟩ := Option.ite_none_right_eq_some.1 hf
    exact (execSkp_of_noKey hgt).trans (raiseKey_eq_latched x s hw)
  | sknp x =>
    obtain ⟨hgt, ⟨⟩⟩ := Option.ite_none_right_eq_some.1 hf
    exact (execSknp_of_noKey hgt).trans (raiseKey_eq_latched x s hw)
  | drw x y n =>
    simp only [expectedInstrFault] at hf
    split at hf
    · next hmem => cases hf; exact exec_of_expectedMemoryFault rfl hw hmem
    · next hmem hfirst => cases hf; exact exec_drw_of_firstOffGrid hw hmem hfirst
    · cases hf
  | ldBVx x | ldMemVx x | ldVxMem x => exact exec_of_expectedMemoryFault rfl hw hf
  | _ => cases hf

/-- An instruction that passes every check of the table leaves the latch as it is. -/
theorem exec_of_no_expectedInstrFault {i : Instr} {s : State} (hf : expectedInstrFault s i = none) :
    ∃ t, exec i s = .next t ∧ t.fault = s.fault := by
  cases i with
  | ret =>
    have hsp : s.sp.val ≠ 0 := by simpa [expectedInstrFault] using hf
    exact ⟨_, execRet_of_pos (by omega), rfl⟩
  | call nnn =>
    have hsp : s.sp.val ≠ 16 := by simpa [expectedInstrFault] using hf
    exact ⟨_, execCall_of_lt nnn (by omega), rfl⟩
  | skp x =>
    have hle : (s.readV x).toNat ≤ 15 := by simpa [expectedInstrFault] using hf
    exact ⟨_, execSkp_of_key (k := ⟨_, Nat.lt_succ_of_le hle⟩) rfl, State.skipIf_fault ..⟩
  | sknp x =>
    have hle : (s.readV x).toNat ≤ 15 := by simpa [expectedInstrFault] using hf
    exact ⟨_, execSknp_of_key (k := ⟨_, Nat.lt_succ_of_le hle⟩) rfl, State.skipIf_fault ..⟩
  | drw x y n =>
    simp only [expectedInstrFault] at hf
    split at hf
    · cases hf
    · cases hf
    · next hmem hfirst =>
      exact ⟨_, drwWith_draws (expectedMemoryFault_eq_none hmem) (.inr (firstOffGrid_eq_none hfirst)), by simp⟩
  | ldBVx x => exact ⟨_, execLdBVx_of_fits (by simpa using expectedMemoryFault_eq_none hf), rfl⟩
  | ldMemVx x => exact ⟨_, execLdMemVx_of_fits (by simpa using expectedMemoryFault_eq_none hf), rfl⟩
  | ldVxMem x =>
    exact ⟨_, execLdVxMem_of_fits (by simpa using expectedMemoryFault_eq_none hf), State.loadRegs_fault ..⟩
  | seImm _ _ | sneImm _ _ | seReg _ _ | sneReg _ _ => exact ⟨_, rfl, State.skipIf_fault ..⟩
  | ldVxK x =>
    cases hk : lowestPressed s.key with
    | none => exact ⟨s, by simp [exec, execLdVxK, hk], rfl⟩
    | some k => exact ⟨(s.writeV x (BitVec.ofNat 8 k.val)).advance, by simp [exec, execLdVxK, hk], rfl⟩
  | _ => exact ⟨_, rfl, rfl⟩

/-- Which info fields a cause of an instruction uses (R242): info0 all but STACK_UNDERFLOW, info1 STACK_OVERFLOW and
SCREEN_OUT_OF_RANGE alone. -/
theorem expectedInstrFault_info {i : Instr} {s : State} {f : Nat × Nat × Nat} (hf : expectedInstrFault s i = some f) :
    (3 ≤ f.1 ∧ f.1 ≤ 7) ∧ (f.1 = 4 → f.2.1 = 0) ∧ (f.1 ≠ 3 → f.1 ≠ 7 → f.2.2 = 0) := by
  cases i with
  | ret | call _ | skp _ | sknp _ =>
    obtain ⟨-, ⟨⟩⟩ := Option.ite_none_right_eq_some.1 hf
    simp
  | drw x y n =>
    simp only [expectedInstrFault] at hf
    split at hf
    · next hmem =>
      cases hf
      obtain ⟨-, rfl⟩ := expectedMemoryFault_eq_some hmem
      simp
    · cases hf; simp
    · cases hf
  | ldBVx x | ldMemVx x | ldVxMem x =>
    obtain ⟨-, rfl⟩ := expectedMemoryFault_eq_some hf
    simp
  | _ => cases hf

/-! ## A STEP against the fault table -/

/-- A cycle from a state that runs i is i. -/
theorem cycle_of_runs (run : Instr → State → Result) {s : State} {i : Instr} (h : s.Runs i) : cycle run s = run i s := by
  obtain ⟨hclear, hpc, hdecode⟩ := h
  simp only [cycle, hclear, fetch_of_le hpc, hdecode]

/-- The three places of the table where a STEP's fault can stand. -/
theorem expectedFaultState_eq_some {s t : State} (h : expectedFaultState s = some t) :
    (s.pc.toNat > 0xFFE ∧ t = s.latched 1 0x0000 (if s.pc.toNat > 0xFFF then s.pc.toNat else 0x1000) 0) ∨
    (s.pc.toNat ≤ 0xFFE ∧ decodeWord (BitVec.ofNat 16 s.wordAtPc) = none ∧ t = s.latched 2 s.wordAtPc 0 0) ∨
    ∃ i f, s.pc.toNat ≤ 0xFFE ∧ decodeWord (BitVec.ofNat 16 s.wordAtPc) = some i ∧
      expectedInstrFault s i = some f ∧ t = s.latched f.1 s.wordAtPc f.2.1 f.2.2 := by
  unfold expectedFaultState at h
  split at h
  · next hpc => exact .inl ⟨hpc, (Option.some.inj h).symm⟩
  · next hpc =>
    split at h
    · next hd => exact .inr (.inl ⟨Nat.not_lt.1 hpc, hd, (Option.some.inj h).symm⟩)
    · next i hd =>
      obtain ⟨f, hf, rfl⟩ := Option.map_eq_some_iff.1 h
      exact .inr (.inr ⟨i, f, Nat.not_lt.1 hpc, hd, hf, rfl⟩)

/-- With no fault in the table, an instruction runs that fails no check. -/
theorem runs_of_no_expectedFaultState {s : State} (hclear : s.fault = none) (h : expectedFaultState s = none) :
    ∃ i, s.Runs i ∧ expectedInstrFault s i = none := by
  unfold expectedFaultState at h
  split at h
  · cases h
  · next hpc =>
    split at h
    · cases h
    · next i hd => exact ⟨i, ⟨hclear, Nat.not_lt.1 hpc, hd⟩, Option.map_eq_none_iff.1 h⟩

/-- A STEP for which the table has a fault state goes there. -/
theorem step_of_expectedFaultState {s t : State} (hclear : s.fault = none) (h : expectedFaultState s = some t) :
    step s = .next t := by
  rcases expectedFaultState_eq_some h with ⟨hpc, rfl⟩ | ⟨hpc, hdecode, rfl⟩ | ⟨i, f, hpc, hdecode, hf, rfl⟩
  · have hinfo : (if s.pc.toNat > 0xFFF then s.pc.toNat else s.pc.toNat + 1) =
        (if s.pc.toNat > 0xFFF then s.pc.toNat else 0x1000) := by
      split <;> omega
    rw [step_of_unfetchable hclear hpc, hinfo]
  · exact step_of_undecodable hclear hpc hdecode
  · exact (cycle_of_runs exec ⟨hclear, hpc, hdecode⟩).trans
      (exec_of_expectedInstrFault (encode_of_decodeWord hdecode) hf)

/-- A STEP for which the table has none ends with the latch clear. -/
theorem step_of_no_expectedFaultState {s : State} (hclear : s.fault = none) (h : expectedFaultState s = none) :
    ∃ t, step s = .next t ∧ t.fault = none := by
  obtain ⟨i, hruns, hf⟩ := runs_of_no_expectedFaultState hclear h
  obtain ⟨t, ht, hfault⟩ := exec_of_no_expectedInstrFault hf
  exact ⟨t, (cycle_of_runs exec hruns).trans ht, hfault.trans hclear⟩

/-- A set latch stops a STEP. -/
theorem step_of_latched {s : State} (h : s.fault ≠ none) : step s = .next s := by
  obtain ⟨r, hr⟩ := Option.ne_none_iff_exists'.1 h
  exact cycle_of_latched exec hr

/-- Settles O10: the table decides a STEP from a clear latch both ways, and LOAD rejects by the length alone. -/
theorem stepFaultsExactlyByPriority : Obligations.StepFaultsExactlyByPriority :=
  ⟨fun _ hclear => ⟨fun _ => step_of_expectedFaultState hclear, step_of_no_expectedFaultState hclear⟩,
    fun _ => step_of_latched, rfl, fun _ _ hlength => if_pos hlength⟩

/-! ## STEP at the host interface -/

/-- The CORE's values make the parametrised cycle the CORE's STEP. -/
theorem cycle_execWith_core (s : State) : cycle (execWith coreParams) s = step s := by
  have hexec : execWith coreParams = exec := funext fun i => funext fun s => (exec_eq_execWith_core i s).symm
  rw [hexec]; rfl

/-- From a clear latch a STEP is the cycle, then what TIMER_COUPLING adds. -/
theorem stepWith_of_cycle {p : Params} {s t : State} (hclear : s.fault = none)
    (h : cycle (execWith p) s = .next t) : stepWith p s = .next (endOfStep p.timerCoupling t) := by
  simp [stepWith, hclear, h]

theorem stepWith_of_latched (p : Params) {s : State} (h : s.fault ≠ none) : stepWith p s = .next (s, none) := by
  simp [stepWith, Option.isSome_iff_ne_none.2 h]

/-- The host's STEP answers by the latch of the state it leaves. -/
theorem hostApply_step {p : Params} {s t : State} {tone : Option Bool} (h : stepWith p s = .next (t, tone)) :
    hostApply p .step s = .next (t, stepResult t tone) := by
  simp [hostApply, h]

theorem stepResult_of_fault {t : State} {r : FaultRecord} (h : t.fault = some r) (tone : Option Bool) :
    stepResult t tone = .stepFault r tone := by
  simp [stepResult, h]

/-! ## A faulting STEP (R240) -/

/-- What the table's fault states have in common: the latch alone is set, to a record of the own pc and word. -/
theorem expectedFaultState_latches {s t : State} (h : expectedFaultState s = some t) :
    ∃ r, t = { s with fault := some r } ∧ r.pc = s.pc ∧
      r.opcode = (if s.pc.toNat ≤ 0xFFE then BitVec.ofNat 16 s.wordAtPc else 0x0000#16) ∧
      (r.cause = 0x02#8 ∨ r.cause = 0x04#8 → r.info0 = 0x0000#16) ∧
      (r.cause ≠ 0x03#8 → r.cause ≠ 0x07#8 → r.info1 = 0x0000#16) := by
  rcases expectedFaultState_eq_some h with ⟨hpc, rfl⟩ | ⟨hpc, -, rfl⟩ | ⟨i, f, hpc, -, hf, rfl⟩
  · exact ⟨_, rfl, rfl, (if_neg (by omega)).symm, by simp, fun _ _ => rfl⟩
  · exact ⟨_, rfl, rfl, (if_pos hpc).symm, fun _ => rfl, fun _ _ => rfl⟩
  · obtain ⟨⟨hlow, hhigh⟩, hinfo0, hinfo1⟩ := expectedInstrFault_info hf
    have hcause : ∀ k < 256, BitVec.ofNat 8 f.1 = BitVec.ofNat 8 k ↔ f.1 = k := fun k hk => by
      rw [← BitVec.toNat_inj, BitVec.toNat_ofNat, BitVec.toNat_ofNat]
      omega
    refine ⟨_, rfl, rfl, (if_pos hpc).symm, fun hc => ?_, fun h3 h7 => ?_⟩
    · have h4 : f.1 = 4 := by
        rcases hc with hc | hc
        · have := (hcause 2 (by omega)).1 hc; omega
        · exact (hcause 4 (by omega)).1 hc
      exact congrArg (BitVec.ofNat 16) (hinfo0 h4)
    · exact congrArg (BitVec.ofNat 16)
        (hinfo1 (mt (hcause 3 (by omega)).2 h3) (mt (hcause 7 (by omega)).2 h7))

/-- Settles O9: a STEP that faults goes to the table's fault state, since without one it would leave the latch clear. -/
theorem faultingStepOnlySetsTheLatch : Obligations.FaultingStepOnlySetsTheLatch := by
  intro s t r hclear hstep hfault
  cases hexp : expectedFaultState s with
  | none =>
    obtain ⟨u, hu, hnone⟩ := step_of_no_expectedFaultState hclear hexp
    cases hstep.symm.trans hu
    cases hfault.symm.trans hnone
  | some u =>
    cases hstep.symm.trans (step_of_expectedFaultState hclear hexp)
    obtain ⟨r', rfl, hpc, hopcode, hinfo0, hinfo1⟩ := expectedFaultState_latches hexp
    cases hfault
    have hhost : stepWith coreParams s = .next ({ s with fault := some r }, none) :=
      stepWith_of_cycle hclear ((cycle_execWith_core s).trans hstep)
    exact ⟨rfl, hpc, hopcode, hinfo0, hinfo1, hostApply_step hhost⟩

end Sys2Proof.Machine

/-! PROOFS. The host interface (60_exceptions.md): the sticky latch (R241), TICK (R260, R261), the ports (R264 to R266),
and the timers over a list of operations (R301). -/

namespace Sys2Proof.Machine

/-! ## What each host operation answers, under any parameter values (R270, R271) -/

/-- A cycle takes a fault or completes, as `execWith_cases` says of the instruction; a set latch completes it at once. -/
theorem cycle_execWith_cases (p : Params) (s : State) : ∃ t, cycle (execWith p) s = .next t ∧
    ((∃ c w a b, t = s.takeFault c w a b) ∨ Completes s t) := by
  rcases cycle_cases (execWith p) s with ⟨-, h⟩ | ⟨-, -, h⟩ | ⟨-, -, -, h⟩ | ⟨i, -, -, -, h⟩
  · exact ⟨s, h, .inr (.goesOn rfl rfl (.inl rfl) rfl rfl (.inl rfl))⟩
  · exact ⟨_, h, .inl ⟨_, _, _, _, rfl⟩⟩
  · exact ⟨_, h, .inl ⟨_, _, _, _, rfl⟩⟩
  · rcases execWith_cases p i s with ⟨c, a, b, ht⟩ | ⟨t, ht, hcompletes⟩
    · exact ⟨_, h.trans ht, .inl ⟨c, _, a, b, rfl⟩⟩
    · exact ⟨t, h.trans ht, .inr hcompletes⟩

/-- A STEP is stopped by the latch, or is a cycle and what TIMER_COUPLING adds. -/
theorem stepWith_cases (p : Params) (s : State) :
    (s.fault ≠ none ∧ stepWith p s = .next (s, none)) ∨
    ∃ t, cycle (execWith p) s = .next t ∧ stepWith p s = .next (endOfStep p.timerCoupling t) := by
  by_cases hclear : s.fault = none
  · obtain ⟨t, ht, -⟩ := cycle_execWith_cases p s
    exact .inr ⟨t, ht, stepWith_of_cycle hclear ht⟩
  · exact .inl ⟨hclear, stepWith_of_latched p hclear⟩

/-- TIMER_COUPLING adds one TICK or nothing. -/
theorem endOfStep_state (c : TimerCoupling) (s : State) :
    (endOfStep c s).1 = s ∨ (endOfStep c s).1 = s.tick.1 := by
  unfold endOfStep
  split
  · exact .inl rfl
  · split
    · exact .inr rfl
    · exact .inl rfl

/-- The host's STEP is the parametrised STEP with its answer. -/
theorem hostApply_step_iff {p : Params} {s t : State} {res : HostResult} :
    hostApply p .step s = .next (t, res) ↔ ∃ tone, stepWith p s = .next (t, tone) ∧ res = stepResult t tone := by
  constructor
  · intro h
    obtain ⟨⟨u, tone⟩, hu⟩ : ∃ u, stepWith p s = .next u := by
      rcases stepWith_cases p s with ⟨-, hu⟩ | ⟨_, -, hu⟩ <;> exact ⟨_, hu⟩
    cases h.symm.trans (hostApply_step hu)
    exact ⟨tone, hu, rfl⟩
  · rintro ⟨tone, hstep, rfl⟩
    exact hostApply_step hstep

/-- LOAD touches memory alone. -/
theorem hostApply_load_state {p : Params} {image : List Byte} {s t : State} {res : HostResult}
    (h : hostApply p (.load image) s = .next (t, res)) : t = s.writeMem t.mem := by
  have hload : s.load image = (t, res) := Host.Outcome.next.inj h
  unfold State.load at hload
  split at hload <;> cases hload <;> rfl

/-- No operation stops. -/
theorem exists_hostApply (p : Params) (op : HostOp) (s : State) : ∃ t res, hostApply p op s = .next (t, res) := by
  cases op with
  | step => rcases stepWith_cases p s with ⟨-, h⟩ | ⟨_, -, h⟩ <;> exact ⟨_, _, hostApply_step h⟩
  | _ => exact ⟨_, _, rfl⟩

/-! ## The sticky latch (R241) -/

/-- The latch belongs to INIT and STEP. -/
theorem hostApply_keeps_fault {p : Params} {op : HostOp} {s t : State} {res : HostResult} (hinit : op ≠ .init)
    (hstep : op ≠ .step) (h : hostApply p op s = .next (t, res)) : t.fault = s.fault := by
  cases op with
  | init => exact absurd rfl hinit
  | step => exact absurd rfl hstep
  | load image => rw [hostApply_load_state h]; rfl
  | _ => cases h; rfl

/-- LOAD does not look at the latch. -/
theorem State.load_setFault (s : State) (image : List Byte) (f : Option FaultRecord) :
    State.load { s with fault := f } image = ({ (s.load image).1 with fault := f }, (s.load image).2) := by
  unfold State.load
  split <;> rfl

/-- Apart from INIT and STEP, only READ_FAULT looks at the latch. -/
theorem hostApply_setFault {p : Params} {op : HostOp} {s t : State} {res : HostResult} (hinit : op ≠ .init)
    (hstep : op ≠ .step) (hread : op ≠ .readFault) (h : hostApply p op s = .next (t, res)) (f : Option FaultRecord) :
    hostApply p op { s with fault := f } = .next ({ t with fault := f }, res) := by
  cases op with
  | init => exact absurd rfl hinit
  | step => exact absurd rfl hstep
  | readFault => exact absurd rfl hread
  | load image =>
    have hload : s.load image = (t, res) := Host.Outcome.next.inj h
    exact congrArg _ ((State.load_setFault s image f).trans (by rw [hload]))
  | _ => cases h; rfl

/-- A set latch is kept by every operation but INIT. -/
theorem hostApply_of_latched {p : Params} {op : HostOp} {s t : State} {res : HostResult} (hinit : op ≠ .init)
    (hlatch : s.fault ≠ none) (h : hostApply p op s = .next (t, res)) : t.fault = s.fault := by
  by_cases hstep : op = .step
  · subst hstep
    cases h.symm.trans (hostApply_step (stepWith_of_latched p hlatch))
    rfl
  · exact hostApply_keeps_fault hinit hstep h

/-- Any number of STEPs of the CORE from a set latch. -/
theorem core_run_of_latched {s : State} (hlatch : s.fault ≠ none) : ∀ n, Sys2Proof.core.run n s = .next s
  | 0 => rfl
  | n + 1 => by
    have hone : Sys2Proof.core.step s = .next s := step_of_latched hlatch
    simp only [Host.Core.run, hone]
    exact core_run_of_latched hlatch n

/-- Settles O8: a STEP stops at the latch check, INIT resets the latch, and no other operation writes it; only
READ_FAULT reads it. -/
theorem setLatchStopsEveryStep : Obligations.SetLatchStopsEveryStep := by
  intro p s r hr
  have hlatch : s.fault ≠ none := by simp [hr]
  refine ⟨step_of_latched hlatch, ?_, core_run_of_latched hlatch, ⟨s.init p, .none, rfl, rfl⟩, ?_⟩
  · rw [hostApply_step (stepWith_of_latched p hlatch), stepResult_of_fault hr]
  · intro op hinit hstep
    obtain ⟨t, res, h⟩ := exists_hostApply p op s
    exact ⟨t, res, h, (hostApply_keeps_fault hinit hstep h).trans hr,
      fun hread => hostApply_setFault hinit hstep hread h none⟩

/-! ## TICK (R260, R261) -/

theorem frame_tick (s : State) : Frame [] [.DT, .ST] s s.tick.1 := by
  apply Frame.intro <;> simp

/-- Decoupled timers give a STEP no tone bit. -/
theorem stepWith_tone_of_decoupled {p : Params} (hp : p.timerCoupling = .decoupled) {s t : State} {tone : Option Bool}
    (h : stepWith p s = .next (t, tone)) : tone = none := by
  rcases stepWith_cases p s with ⟨-, hs⟩ | ⟨u, -, hs⟩
  · cases h.symm.trans hs; rfl
  · rw [hp] at hs; cases h.symm.trans hs; rfl

/-- Settles O52: TICK is two `countDown`s, and a STEP of the CORE, whose timers are decoupled, gives no tone bit. -/
theorem tickCountsDown : Obligations.TickCountsDown := by
  refine ⟨fun p s => ⟨s.tick.1, ?_, countDown_toNat s.DT, countDown_toNat s.ST, rfl, frame_tick s⟩, fun s t res h => ?_⟩
  · rw [← State.tick_tone]; rfl
  · obtain ⟨tone, hstep, rfl⟩ := hostApply_step_iff.1 h
    rw [stepWith_tone_of_decoupled rfl hstep]
    cases hfault : t.fault with
    | none => exact .inl (by simp [stepResult, hfault])
    | some r => exact .inr ⟨r, stepResult_of_fault hfault none⟩

/-! ## The ports (R264, R265, R266) -/

/-- A STEP, coupled or not, leaves the key lines, and does not clear the redraw flag. -/
theorem stepWith_ports {p : Params} {s t : State} {tone : Option Bool} (h : stepWith p s = .next (t, tone)) :
    t.key = s.key ∧ (t.redraw = s.redraw ∨ t.redraw = true) := by
  rcases stepWith_cases p s with ⟨-, hs⟩ | ⟨u, hu, hs⟩
  · cases h.symm.trans hs; exact ⟨rfl, .inl rfl⟩
  · have hcycle : u.key = s.key ∧ (u.redraw = s.redraw ∨ u.redraw = true) := by
      obtain ⟨v, hv, hcases⟩ := cycle_execWith_cases p s
      cases hu.symm.trans hv
      rcases hcases with ⟨c, w, a, b, rfl⟩ | hcompletes
      · exact ⟨rfl, .inl rfl⟩
      · exact ⟨hcompletes.key, hcompletes.redraw⟩
    have ht : t = (endOfStep p.timerCoupling u).1 :=
      congrArg Prod.fst (Host.Outcome.next.inj (h.symm.trans hs))
    rcases endOfStep_state p.timerCoupling u with he | he
    · rw [ht, he]; exact hcycle
    · rw [ht, he]; exact hcycle

/-- Who may change the key lines, who may clear a set redraw flag, and who may change the framebuffer. -/
def PortsRespected (op : HostOp) (s t : State) : Prop :=
  (t.key ≠ s.key → op = .init ∨ ∃ lines, op = .writeKeys lines) ∧
  (s.redraw = true → t.redraw = false → op = .clearRedraw) ∧ (t.fb ≠ s.fb → op = .init ∨ op = .step)

/-- Any operation may leave all three as they are. -/
theorem portsRespected_of_unchanged (op : HostOp) {s t : State} (hkey : t.key = s.key) (hredraw : t.redraw = s.redraw)
    (hfb : t.fb = s.fb) : PortsRespected op s t :=
  ⟨fun hne => absurd hkey hne, fun hset hcleared => Bool.noConfusion (hset.symm.trans (hredraw.symm.trans hcleared)),
    fun hne => absurd hfb hne⟩

theorem hostApply_ports {p : Params} {op : HostOp} {s t : State} {res : HostResult}
    (h : hostApply p op s = .next (t, res)) : PortsRespected op s t := by
  cases op with
  | init => cases h; exact ⟨fun _ => .inl rfl, fun _ hcleared => Bool.noConfusion hcleared, fun _ => .inl rfl⟩
  | step =>
    obtain ⟨tone, hstep, -⟩ := hostApply_step_iff.1 h
    obtain ⟨hkey, hredraw⟩ := stepWith_ports hstep
    refine ⟨fun hne => absurd hkey hne, fun hset hcleared => ?_, fun _ => .inr rfl⟩
    rcases hredraw with hr | hr <;> simp [hr, hset] at hcleared
  | load image => rw [hostApply_load_state h]; exact portsRespected_of_unchanged _ rfl rfl rfl
  | clearRedraw => cases h; exact ⟨fun hne => absurd rfl hne, fun _ _ => rfl, fun hne => absurd rfl hne⟩
  | writeKeys lines =>
    cases h
    exact ⟨fun _ => .inr ⟨lines, rfl⟩, fun hset hcleared => Bool.noConfusion (hset.symm.trans hcleared),
      fun hne => absurd rfl hne⟩
  | tick | readFb | readRedraw | readFault => cases h; exact portsRespected_of_unchanged _ rfl rfl rfl

theorem frame_writeKeys (s : State) (lines : Word) : Frame [] [.key] s (s.writeKeys lines) := by
  apply Frame.intro <;> simp [State.writeKeys, State.readV]

theorem frame_clearRedraw (s : State) : Frame [] [.redraw] s s.clearRedraw := by
  apply Frame.intro <;> simp [State.clearRedraw, State.readV]

theorem State.writeKeys_key (s : State) (lines : Word) (k : Reg) : (s.writeKeys lines).key[k] = lines.getLsbD k.val := by
  simp [State.writeKeys]

/-- Settles O55: the reads answer from the state they leave, each write port has its frame, and `hostApply_ports` goes
over all operations. -/
theorem hostPortsDoOnlyTheirPart : Obligations.HostPortsDoOnlyTheirPart :=
  ⟨fun _ _ => ⟨rfl, rfl, rfl⟩,
    fun _ lines s => ⟨s.writeKeys lines, rfl, s.writeKeys_key lines, rfl, frame_writeKeys s lines⟩,
    fun _ s => ⟨s.clearRedraw, rfl, rfl, rfl, frame_clearRedraw s⟩,
    fun _ _ _ _ _ => hostApply_ports⟩

/-! ## Timers over a list of host operations (R301) -/

theorem hostRun_cons {p : Params} {op : HostOp} {s t : State} {res : HostResult}
    (h : hostApply p op s = .next (t, res)) (ops : List HostOp) : hostRun p (op :: ops) s = hostRun p ops t := by
  simp [hostRun, h]

/-- No list of operations stops. -/
theorem exists_hostRun (p : Params) : ∀ (ops : List HostOp) (s : State), ∃ t, hostRun p ops s = .next t
  | [], s => ⟨s, rfl⟩
  | op :: ops, s => by
    obtain ⟨u, res, hu⟩ := exists_hostApply p op s
    rw [hostRun_cons hu]
    exact exists_hostRun p ops u

/-- No STEP of the list runs one of the instructions `writer x`. -/
def NoStepRuns (p : Params) (writer : Reg → Instr) (ops : List HostOp) (s : State) : Prop :=
  ∀ pre post u, ops = pre ++ .step :: post → hostRun p pre s = .next u → ∀ x, ¬ u.Runs (writer x)

theorem NoStepRuns.head {p : Params} {writer : Reg → Instr} {ops : List HostOp} {s : State}
    (h : NoStepRuns p writer (.step :: ops) s) : ∀ x, ¬ s.Runs (writer x) :=
  h [] ops s rfl rfl

theorem NoStepRuns.tail {p : Params} {writer : Reg → Instr} {op : HostOp} {ops : List HostOp} {s t : State}
    {res : HostResult} (h : NoStepRuns p writer (op :: ops) s) (hop : hostApply p op s = .next (t, res)) :
    NoStepRuns p writer ops t := fun pre post u hsplit hrun =>
  h (op :: pre) post u (congrArg (op :: ·) hsplit) ((hostRun_cons hop pre).trans hrun)

/-- No STEP of the list ends with a TICK: the timers are decoupled, or the latch stops every STEP. -/
def NoStepTicks (p : Params) (ops : List HostOp) (s : State) : Prop :=
  p.timerCoupling = .decoupled ∨ (.step ∈ ops → s.fault ≠ none)

theorem NoStepTicks.head {p : Params} {ops : List HostOp} {s : State} (h : NoStepTicks p (.step :: ops) s) :
    p.timerCoupling = .decoupled ∨ s.fault ≠ none :=
  h.imp id fun hlatch => hlatch List.mem_cons_self

/-- A latch that is set stays so to the next STEP. -/
theorem NoStepTicks.tail {p : Params} {op : HostOp} {ops : List HostOp} {s t : State} {res : HostResult}
    (h : NoStepTicks p (op :: ops) s) (hinit : op ≠ .init) (hop : hostApply p op s = .next (t, res)) :
    NoStepTicks p ops t := by
  refine h.imp id fun hlatch hmem => ?_
  have hs : s.fault ≠ none := hlatch (List.mem_cons_of_mem op hmem)
  rwa [hostApply_of_latched hinit hs hop]

/-- A STEP that does not tick leaves each timer that its instruction does not write. -/
theorem stepWith_timers {p : Params} {s t : State} {tone : Option Bool}
    (hticks : p.timerCoupling = .decoupled ∨ s.fault ≠ none) (h : stepWith p s = .next (t, tone)) :
    ((∀ x, ¬ s.Runs (.ldDtVx x)) → t.DT = s.DT) ∧ ((∀ x, ¬ s.Runs (.ldStVx x)) → t.ST = s.ST) := by
  by_cases hclear : s.fault = none
  · have hp : p.timerCoupling = .decoupled := hticks.resolve_right (not_not_intro hclear)
    obtain ⟨u, hu, -⟩ := cycle_execWith_cases p s
    have hs := stepWith_of_cycle hclear hu
    rw [hp] at hs
    cases h.symm.trans hs
    rcases cycle_cases (execWith p) s with ⟨-, hc⟩ | ⟨-, -, hc⟩ | ⟨-, -, -, hc⟩ | ⟨i, -, hpc, hdecode, hc⟩
    · cases hu.symm.trans hc; exact ⟨fun _ => rfl, fun _ => rfl⟩
    · cases hu.symm.trans hc; exact ⟨fun _ => rfl, fun _ => rfl⟩
    · cases hu.symm.trans hc; exact ⟨fun _ => rfl, fun _ => rfl⟩
    · obtain ⟨hDT, hST⟩ := execWith_timers (hc.symm.trans hu)
      have hruns : s.Runs i := ⟨hclear, hpc, hdecode⟩
      exact ⟨fun hno => hDT fun x hx => hno x (hx ▸ hruns), fun hno => hST fun x hx => hno x (hx ▸ hruns)⟩
  · cases h.symm.trans (stepWith_of_latched p hclear)
    exact ⟨fun _ => rfl, fun _ => rfl⟩

/-- The timer goes down by one with a TICK, and with no other operation but INIT and a STEP of its `writer`. -/
def CountsTicks (p : Params) (timer : State → Byte) (writer : Reg → Instr) : Prop :=
  ∀ (op : HostOp) (ops : List HostOp) (s t : State) (res : HostResult), op ≠ .init → NoStepTicks p (op :: ops) s →
    NoStepRuns p writer (op :: ops) s → hostApply p op s = .next (t, res) →
    (timer t).toNat = (timer s).toNat - [op].count .tick

/-- What is one of the two timers, counts down with a TICK and is left by a STEP of no writer, counts TICKs. -/
theorem countsTicks_of_timer {p : Params} {timer : State → Byte} {writer : Reg → Instr}
    (hsame : ∀ {s t : State}, t.DT = s.DT → t.ST = s.ST → timer t = timer s)
    (htick : ∀ s : State, timer s.tick.1 = countDown (timer s))
    (hstep : ∀ {s t : State} {tone : Option Bool}, p.timerCoupling = .decoupled ∨ s.fault ≠ none →
      stepWith p s = .next (t, tone) → (∀ x, ¬ s.Runs (writer x)) → timer t = timer s) :
    CountsTicks p timer writer := by
  intro op ops s t res hinit hticks hruns h
  cases op with
  | init => exact absurd rfl hinit
  | tick => cases h; rw [htick]; exact countDown_toNat _
  | step =>
    obtain ⟨tone, hs, -⟩ := hostApply_step_iff.1 h
    exact congrArg BitVec.toNat (hstep hticks.head hs hruns.head)
  | load image => rw [hostApply_load_state h]; exact congrArg BitVec.toNat (hsame rfl rfl)
  | clearRedraw | writeKeys _ => cases h; exact congrArg BitVec.toNat (hsame rfl rfl)
  | readFb | readRedraw | readFault => cases h; rfl

theorem countsTicks_DT (p : Params) : CountsTicks p State.DT .ldDtVx :=
  countsTicks_of_timer (fun hDT _ => hDT) State.tick_DT fun hticks hs => (stepWith_timers hticks hs).1

theorem countsTicks_ST (p : Params) : CountsTicks p State.ST .ldStVx :=
  countsTicks_of_timer (fun _ hST => hST) State.tick_ST fun hticks hs => (stepWith_timers hticks hs).2

/-- Such a timer counts the TICKs of a whole list. -/
theorem CountsTicks.of_hostRun {p : Params} {timer : State → Byte} {writer : Reg → Instr}
    (hcounts : CountsTicks p timer writer) {ops : List HostOp} : ∀ {s t : State}, .init ∉ ops → NoStepTicks p ops s →
    NoStepRuns p writer ops s → hostRun p ops s = .next t → (timer t).toNat = (timer s).toNat - ops.count .tick := by
  induction ops with
  | nil => intro s t _ _ _ h; cases h; rfl
  | cons op ops ih =>
    intro s t hinit hticks hruns h
    have hop : op ≠ .init := fun e => hinit (e ▸ List.mem_cons_self)
    have hops : .init ∉ ops := fun hmem => hinit (List.mem_cons_of_mem op hmem)
    obtain ⟨u, res, hu⟩ := exists_hostApply p op s
    have hfirst := hcounts op ops s u res hop hticks hruns hu
    have hrest := ih hops (hticks.tail hop hu) (hruns.tail hu) ((hostRun_cons hu ops).symm.trans h)
    rw [hrest, hfirst, Nat.sub_sub, ← List.count_append, List.singleton_append]

/-- Settles O53: each timer counts the TICKs of the list, operation by operation. -/
theorem timersRunDownByTicks : Obligations.TimersRunDownByTicks := by
  intro p ops s hinit hticks
  obtain ⟨t, ht⟩ := exists_hostRun p ops s
  exact ⟨t, ht, fun hruns => (countsTicks_DT p).of_hostRun hinit hticks hruns ht,
    fun hruns => (countsTicks_ST p).of_hostRun hinit hticks hruns ht⟩

end Sys2Proof.Machine

/-! PROOFS. INIT and LOAD (70_reset_and_hazards.md): the reset values (R290), and the image at 0x200 upward or nothing
(R291, R249). -/

namespace Sys2Proof.Machine

/-! ## INIT (R290) -/

/-- INIT does not look at the state it leaves: only the model's own draw index goes on. -/
theorem State.isReset_init (p : Params) (s : State) : (s.init p).IsReset p where
  V r := Vector.getElem_replicate r.isLt
  I := rfl
  pc := rfl
  sp := rfl
  stack k := Vector.getElem_replicate k.isLt
  DT := rfl
  ST := rfl
  font := readByte_resetWith_font p
  zero _ ha := readByte_resetWith_zero p ha
  fb := pixelAt_clearedFb
  redraw := rfl
  key k := Vector.getElem_replicate k.isLt
  fault := rfl

/-- The CORE's font is what unlisted addresses read as, so writing it into an empty memory lists nothing. -/
theorem resetWith_coreParams : State.resetWith coreParams = State.reset :=
  congrArg (fun m => { State.reset with mem := m }) (show writeBlock [] 0 fontTable = [] by decide)

theorem State.isReset_reset : State.reset.IsReset coreParams :=
  have h : State.reset.init coreParams = State.reset := resetWith_coreParams
  h ▸ State.isReset_init coreParams State.reset

/-- Settles O14: INIT writes every piece of state, `State.reset` is what INIT makes of itself, and every operation but
INIT keeps a set latch. -/
theorem initGivesTheResetState : Obligations.InitGivesTheResetState := by
  refine ⟨State.isReset_reset, fun p s => ⟨s.init p, rfl, s.isReset_init p⟩, fun p op s t res h hlatch hclear => ?_⟩
  by_contra hinit
  exact hlatch ((hostApply_of_latched hinit hlatch h).symm.trans hclear)

/-! ## LOAD (R291, R249) -/

/-- An image of at most PROG_MAX bytes fits from PROG_BASE to the end of memory. -/
theorem hostApply_load_of_fits (p : Params) {image : List Byte} (s : State) (h : image.length ≤ 3584) :
    hostApply p (.load image) s = .next (s.writeMem (writeBlock s.mem progBase image), .loadOk) :=
  congrArg Host.Outcome.next (if_neg (Nat.not_lt.2 h))

/-- A longer image is rejected before a byte is written. -/
theorem hostApply_load_of_too_large (p : Params) {image : List Byte} (s : State) (h : image.length > 3584) :
    hostApply p (.load image) s = .next (s, .loadTooLarge) :=
  congrArg Host.Outcome.next (if_pos h)

/-- Settles O54: LOAD checks the length alone, and then is one `writeBlock`, inside which a read sees the image and
outside which it sees what was there. -/
theorem loadCopiesTheImageOrNothing : Obligations.LoadCopiesTheImageOrNothing := fun p image s hwf =>
  ⟨fun hfits =>
    ⟨s.writeMem (writeBlock s.mem progBase image), hostApply_load_of_fits p s hfits,
      fun _ hk => readByte_writeBlock_inside image hwf.sorted hk,
      fun _ ha => readByte_writeBlock_outside image hwf.sorted ha,
      State.writeMem_pc s _, frame_writeMem s _⟩,
    hostApply_load_of_too_large p s⟩

end Sys2Proof.Machine

/-! PROOFS. Encoding (30_encoding.md): the round trips of decoder and encoder (R85 to R88), the illegal words (R89), and
the STEP of a decoded word (R84). -/

namespace Sys2Proof

/-! ## Encoding, then decoding (R86, R87) -/

/-- Every well-formed instruction is what its own word decodes to: the decoder takes each field out of the format that
holds it. -/
theorem decodeWord_encode {i : Instr} (hwf : i.wellFormed = true) : decodeWord (encode i) = some i := by
  cases i with
  | cls | ret => rfl
  | jp _ | call _ | ldI _ | jpV0 _ => simp [encode, decodeWord]
  | seImm _ _ | sneImm _ _ | ldImm _ _ | addImm _ _ | rnd _ _ | skp _ | sknp _ => simp [encode, decodeWord]
  | seReg _ _ | sneReg _ _ => simp [encode, decodeWord]
  | ldReg _ _ | orReg _ _ | andReg _ _ | xorReg _ _ | addReg _ _ | sub _ _ | shr _ _ | subn _ _ | shl _ _ =>
    simp [encode, decodeWord, decodeClass8]
  | drw x y n =>
    have hn : n ≤ 15 := of_decide_eq_true hwf
    simp [encode, decodeWord, Nat.mod_eq_of_lt (Nat.lt_succ_of_le hn)]
  | ldVxDt _ | ldVxK _ | ldDtVx _ | ldStVx _ | addIVx _ | ldFVx _ | ldBVx _ | ldMemVx _ | ldVxMem _ =>
    simp [encode, decodeWord, decodeClassF]

/-- The decoder reads the word of the first two bytes and hands on the rest. -/
theorem decode_eq_ok_of_decodeWord {hi lo : Byte} {i : Instr} (h : decodeWord (wordOfBytes hi lo) = some i)
    (rest : List Byte) : decode (hi :: lo :: rest) = .ok (i, rest) := by
  simp only [decode, h]

theorem decodeWord_of_decode_eq_ok {hi lo : Byte} {i : Instr} {rest rest' : List Byte}
    (h : decode (hi :: lo :: rest) = .ok (i, rest')) : decodeWord (wordOfBytes hi lo) = some i := by
  simp only [decode] at h
  split at h
  · next hword => cases h; exact hword
  · cases h

/-- Settles O1: the two stored bytes make the word again, and the word decodes to its instruction. -/
theorem decodeOfEncodeIsIdentity : Obligations.DecodeOfEncodeIsIdentity := by
  intro i rest hwf
  refine decode_eq_ok_of_decodeWord ?_ rest
  rw [wordOfBytes_high_low]
  exact decodeWord_encode hwf

/-! ## Decoding, then encoding (R85, R88) -/

/-- Only DRW can be ill-formed, and the N field of a word has four bits. -/
theorem wellFormed_of_decodeWord {op : Word} {i : Instr} (h : decodeWord op = some i) : i.wellFormed = true := by
  cases i with
  | drw x y n =>
    have hop : wordP 0xD#4 x y (BitVec.ofNat 4 n) = op := encode_of_decodeWord h
    subst hop
    have hn : n % 16 = n := by simpa [decodeWord] using h
    exact decide_eq_true (by omega)
  | _ => rfl

/-- Settles O2: `encode_of_decodeWord` puts the word together again. -/
theorem encodeOfDecodeIsIdentity : Obligations.EncodeOfDecodeIsIdentity :=
  fun _ _ h => ⟨wellFormed_of_decodeWord h, encode_of_decodeWord h⟩

/-! ## The illegal words (R89) -/

/-- A chain of tests answers nothing where every test fails. -/
theorem ite_some_eq_none_iff {c : Prop} [Decidable c] (i : Instr) (o : Option Instr) :
    (if c then some i else o) = none ↔ ¬ c ∧ o = none := by
  split <;> simp [*]

theorem decodeClass8_eq_none_iff {x y : Reg} {n : BitVec 4} :
    decodeClass8 x y n = none ↔ n.toNat ∈ [0x8, 0x9, 0xA, 0xB, 0xC, 0xD, 0xF] := by
  have hlisted : ∀ n : BitVec 4, (n ≠ 0x0#4 ∧ n ≠ 0x1#4 ∧ n ≠ 0x2#4 ∧ n ≠ 0x3#4 ∧ n ≠ 0x4#4 ∧ n ≠ 0x5#4 ∧ n ≠ 0x6#4 ∧
      n ≠ 0x7#4 ∧ n ≠ 0xE#4) ↔ n.toNat ∈ [0x8, 0x9, 0xA, 0xB, 0xC, 0xD, 0xF] := by decide
  rw [← hlisted]
  simp [decodeClass8, ite_some_eq_none_iff]

theorem decodeClassF_eq_none_iff {x : Reg} {nn : Byte} :
    decodeClassF x nn = none ↔ nn.toNat ∉ [0x07, 0x0A, 0x15, 0x18, 0x1E, 0x29, 0x33, 0x55, 0x65] := by
  simp [decodeClassF, ite_some_eq_none_iff, ← BitVec.toNat_inj]

theorem fieldN_eq_zero_iff (op : Word) : fieldN op = 0#4 ↔ op.toNat % 0x10 = 0 := by
  rw [← BitVec.toNat_inj, fieldN_toNat]; rfl

/-- Settles O5: class by class. In class 8 and class F the selector decides, in 0, 5, 9 and E the decoder's own tests;
the ten other classes decode whatever follows, and the list does not name them. -/
theorem illegalWordsAreThoseListed : Obligations.IllegalWordsAreThoseListed := by
  intro op
  have hclass := opClass_toNat op
  unfold decodeWord
  split
  case h_1 hk => simp [← hclass, hk, ite_some_eq_none_iff]
  case h_6 hk | h_10 hk => simp [← hclass, hk, fieldN_eq_zero_iff]
  case h_9 hk => rw [decodeClass8_eq_none_iff, fieldN_toNat]; simp [← hclass, hk]
  case h_15 hk => simp [← hclass, hk, ite_some_eq_none_iff, ← BitVec.toNat_inj, fieldNN_toNat]
  case h_16 hk => rw [decodeClassF_eq_none_iff, fieldNN_toNat]; simp [← hclass, hk]
  case h_2 hk | h_3 hk | h_4 hk | h_5 hk | h_7 hk | h_8 hk | h_11 hk | h_12 hk | h_13 hk | h_14 hk =>
    simp [← hclass, hk]
  case h_17 => have := (opClass op).isLt; simp only [imp_false] at *; omega

/-- Settles O4: the decoder evaluated on ten written words. -/
theorem sampleWordsDecode : Obligations.SampleWordsDecode :=
  ⟨rfl, rfl, rfl, rfl, rfl, rfl, rfl, rfl, rfl, rfl⟩

end Sys2Proof

namespace Sys2Proof.Machine

/-! ## The STEP of a decoded word (R84) -/

theorem State.runs_of_decode {s : State} {i : Instr} (hclear : s.fault = none) (hpc : s.pc.toNat ≤ 0xFFE)
    (hdecode : decode [readByte s.mem s.pc.toNat, readByte s.mem (s.pc.toNat + 1)] = .ok (i, [])) : s.Runs i := by
  refine ⟨hclear, hpc, ?_⟩
  rw [State.wordAtPc_eq, BitVec.ofNat_toNat, BitVec.setWidth_eq]
  exact decodeWord_of_decode_eq_ok hdecode

/-- Settles O6: such a state runs the instruction, and the cycle is then the instruction alone. -/
theorem stepRunsTheDecodedInstruction : Obligations.StepRunsTheDecodedInstruction :=
  fun _ _ hclear hpc hdecode => cycle_of_runs exec (State.runs_of_decode hclear hpc hdecode)

end Sys2Proof.Machine

/-! PROOFS. The invariant: INIT gives it, and STEP and every other host operation keep it, under any parameter values
(R25, R28, R240, R290). -/

namespace Sys2Proof.Machine

/-! ## INIT, and what leaves memory, pc, stack and latch alone -/

theorem State.inv_init (p : Params) (s : State) : (s.init p).Inv where
  memory := wf_resetWith p
  pcBound := by simp [State.init, State.resetWith, State.reset]
  stackBound k := by simp [State.init, State.resetWith, State.reset]
  latch _ h := by simp [State.init, State.resetWith, State.reset] at h

/-- Settles O11: `State.reset` is what INIT makes of it. -/
theorem invariantHoldsAfterInit : Obligations.InvariantHoldsAfterInit := by
  refine ⟨?_, State.inv_init⟩
  have h : State.reset.init coreParams = State.reset := resetWith_coreParams
  exact h ▸ State.inv_init coreParams State.reset

/-- The invariant speaks of memory, pc, stack and latch alone. -/
theorem State.Inv.of_eq {s t : State} (h : s.Inv) (mem : t.mem = s.mem) (pc : t.pc = s.pc) (stack : t.stack = s.stack)
    (fault : t.fault = s.fault) : t.Inv where
  memory := mem ▸ h.memory
  pcBound := pc ▸ h.pcBound
  stackBound := stack ▸ h.stackBound
  latch := by rw [fault, pc]; exact h.latch

/-! ## A fault, and an instruction that completes -/

theorem Fault.code_bounds (c : Fault) : 1 ≤ c.code.toNat ∧ c.code.toNat ≤ 7 := by
  cases c <;> decide

/-- The record of a fault names the pc that the fault leaves. -/
theorem State.Inv.takeFault {s : State} (h : s.Inv) (c : Fault) (op a b : Word) : (s.takeFault c op a b).Inv where
  memory := h.memory
  pcBound := h.pcBound
  stackBound := h.stackBound
  latch r hr := by cases hr; exact ⟨rfl, c.code_bounds⟩

/-- An instruction that was fetched, and completes. -/
theorem State.Inv.of_completes {s t : State} (h : s.Inv) (hclear : s.fault = none) (hpc : s.pc.toNat ≤ 0xFFE)
    (hcompletes : Completes s t) : t.Inv where
  memory := hcompletes.memory h.memory
  pcBound := (hcompletes.bounds hpc h.stackBound).1
  stackBound := (hcompletes.bounds hpc h.stackBound).2
  latch r hr := by simp [hcompletes.fault, hclear] at hr

/-! ## STEP -/

/-- The cycle is stopped by the latch, takes a fault of fetch or decode, or runs an instruction from a pc that could be
fetched from. -/
theorem cycle_execWith_keeps_inv {p : Params} {s t : State} (h : s.Inv) (ht : cycle (execWith p) s = .next t) :
    t.Inv := by
  rcases cycle_cases (execWith p) s with ⟨-, hc⟩ | ⟨-, -, hc⟩ | ⟨-, -, -, hc⟩ | ⟨i, hclear, hpc, -, hc⟩
  · cases ht.symm.trans hc; exact h
  · cases ht.symm.trans hc; exact h.takeFault ..
  · cases ht.symm.trans hc; exact h.takeFault ..
  · rcases execWith_cases p i s with ⟨c, a, b, hi⟩ | ⟨u, hi, hcompletes⟩
    · cases ht.symm.trans (hc.trans hi); exact h.takeFault ..
    · cases ht.symm.trans (hc.trans hi); exact h.of_completes hclear hpc hcompletes

/-- Settles O12: STEP is the cycle under the CORE's parameter values. -/
theorem stepKeepsTheInvariant : Obligations.StepKeepsTheInvariant :=
  fun s _ h ht => cycle_execWith_keeps_inv h ((cycle_execWith_core s).trans ht)

/-! ## The other host operations, and lists of them -/

theorem stepWith_keeps_inv {p : Params} {s t : State} {tone : Option Bool} (h : s.Inv)
    (ht : stepWith p s = .next (t, tone)) : t.Inv := by
  rcases stepWith_cases p s with ⟨-, hs⟩ | ⟨u, hu, hs⟩
  · cases ht.symm.trans hs; exact h
  · have hinv : u.Inv := cycle_execWith_keeps_inv h hu
    have hend : t = (endOfStep p.timerCoupling u).1 :=
      congrArg Prod.fst (Host.Outcome.next.inj (ht.symm.trans hs))
    rcases endOfStep_state p.timerCoupling u with he | he
    · rw [hend, he]; exact hinv
    · rw [hend, he]; exact hinv.of_eq rfl rfl rfl rfl

theorem State.writeKeys_fault (s : State) (lines : Word) : (s.writeKeys lines).fault = s.fault := by
  rw [State.writeKeys]

theorem hostApply_keeps_inv {p : Params} {op : HostOp} {s t : State} {res : HostResult} (h : s.Inv)
    (ht : hostApply p op s = .next (t, res)) : t.Inv := by
  cases op with
  | init => cases ht; exact State.inv_init p s
  | load image =>
    have hload : s.load image = (t, res) := Host.Outcome.next.inj ht
    have hwf : Memory.wf t.mem := by simpa [hload] using wf_load h.memory image
    rw [hostApply_load_state ht]
    exact ⟨hwf, h.pcBound, h.stackBound, h.latch⟩
  | step =>
    obtain ⟨tone, hstep, -⟩ := hostApply_step_iff.1 ht
    exact stepWith_keeps_inv h hstep
  | tick | clearRedraw => cases ht; exact h.of_eq rfl rfl rfl rfl
  | writeKeys lines => cases ht; exact h.of_eq rfl rfl rfl (State.writeKeys_fault s lines)
  | readFb | readRedraw | readFault => cases ht; exact h

/-- Settles O13, by induction on the list of operations. -/
theorem hostRunsKeepTheInvariant : Obligations.HostRunsKeepTheInvariant := by
  intro p ops
  induction ops with
  | nil => intro s t h ht; cases ht; exact h
  | cons op ops ih =>
    intro s t h ht
    obtain ⟨u, res, hu⟩ := exists_hostApply p op s
    exact ih u t (hostApply_keeps_inv h hu) ((hostRun_cons hu ops).symm.trans ht)

end Sys2Proof.Machine

/-! PROOFS. Who writes what (10_state.md, the "written by" column of R20, and R21), and who reads ST and redraw. -/

namespace Sys2Proof.Machine

/-! ## RND (R181) -/

theorem frame_drawByte (s : State) : Frame [] [.draws] s s.drawByte.2 := by
  apply Frame.intro <;> simp

/-- A register write adds the register to what has changed. -/
theorem Frame.writeV {regs : List Reg} {parts : List Part} {s t : State} (h : Frame regs parts s t) (x : Reg)
    (b : Byte) : Frame (x :: regs) parts s (t.writeV x b) := by
  obtain ⟨hregs, hparts⟩ := h
  refine ⟨fun r hr => ?_, fun p hp => ?_⟩
  · obtain ⟨hx, hrest⟩ : r ≠ x ∧ r ∉ regs := by simpa using hr
    exact (t.writeV_readV x r b).trans ((if_neg hx).trans (hregs r hrest))
  · have hkept : p.Kept s t := hparts p hp
    cases p <;> exact hkept

theorem frame_rnd (x : Reg) (b : Byte) (s : State) : Frame [x] [.draws] s (s.drawByte.2.writeV x b).advance :=
  ((frame_drawByte s).writeV x b).jumpTo _

/-- Settles O34: the draw is masked by one `&&&`, of which 0x00 leaves nothing and 0xFF everything. -/
theorem rndMasksAFreshDraw : Obligations.RndMasksAFreshDraw := by
  intro x nn s
  have hread : (s.drawByte.2.writeV x (s.drawByte.1 &&& nn)).advance.readV x = (Config.rngByte s.draws &&& nn) :=
    State.writeV_readV_self ..
  refine ⟨encodedAs_of_wordR (c := 0xC#4) rfl (by simp [decodeWord]) (by simp), _, rfl, hread, rfl, fun hzero => ?_,
    fun hones => ?_, rfl, frame_rnd x _ s⟩
  · rw [hread, hzero, BitVec.and_zero]
  · rw [hread, hones]; exact BitVec.and_allOnes

/-! ## The listed writers (R20, R21) -/

/-- From s to t nothing changed that is not listed for i, and the latch only by a fault. -/
def WritesListed (i : Instr) (s t : State) : Prop :=
  (∀ r, writesReg i r = false → t.readV r = s.readV r) ∧
  (∀ p : Part, p ≠ .fault → writesPart i p = false → p.Kept s t) ∧
  (t.fault = s.fault ∨ t = { s with fault := t.fault })

/-- A frame of listed registers and parts; the latch is no instruction's part. -/
theorem WritesListed.of_frame {i : Instr} {regs : List Reg} {parts : List Part} {s t : State}
    (hframe : Frame regs parts s t) (hregs : ∀ r ∈ regs, writesReg i r = true)
    (hparts : ∀ p ∈ parts, writesPart i p = true) : WritesListed i s t := by
  obtain ⟨hregsKept, hpartsKept⟩ := hframe
  have hlatch : writesPart i .fault = false := by cases i <;> rfl
  have hunlisted : ∀ p, writesPart i p = false → p ∉ parts := fun p hp hmem => by simp [hparts p hmem] at hp
  refine ⟨fun r hr => hregsKept r fun hmem => ?_, fun p _ hp => hpartsKept p (hunlisted p hp),
    .inl (hpartsKept .fault (hunlisted .fault hlatch))⟩
  simp [hregs r hmem] at hr

/-- A fault sets the latch and nothing else. -/
theorem WritesListed.of_raiseFault {i : Instr} {c : Fault} {a b : Word} {s t : State}
    (h : raiseFault i c a b s = .next t) : WritesListed i s t := by
  cases h
  exact ⟨fun _ _ => rfl, fun p hp _ => by cases p <;> simp [Part.Kept] at hp ⊢, .inr rfl⟩

/-- With a key pressed or with none, LD Vx, K writes no more than VX. -/
theorem execLdVxK_frame {x : Reg} {s t : State} (h : execLdVxK x s = .next t) : Frame [x] [] s t := by
  unfold execLdVxK at h
  split at h
  · cases h; exact (frame_writeV x _ s).jumpTo _
  · cases h; exact .refl ..

/-- The frame of each instruction lists no more than the table does. -/
theorem exec_writesListed {i : Instr} {s t : State} (h : exec i s = .next t) : WritesListed i s t := by
  cases i with
  | cls => cases h; exact .of_frame (frame_showFb_advance s _) (by simp) (by simp [writesPart])
  | jp _ | jpV0 _ => cases h; exact .of_frame ((Frame.refl [] [] s).jumpTo _) (by simp) (by simp)
  | ret =>
    by_cases hpos : 0 < s.sp.val
    · cases h.symm.trans (execRet_of_pos hpos)
      exact .of_frame ((frame_pop s).jumpTo _) (by simp) (by simp [writesPart])
    · exact .of_raiseFault ((execRet_of_empty hpos).symm.trans h)
  | call nnn =>
    by_cases hlt : s.sp.val < 16
    · cases h.symm.trans (execCall_of_lt nnn hlt)
      exact .of_frame ((frame_push s hlt).jumpTo _) (by simp) (by simp [writesPart])
    · exact .of_raiseFault ((execCall_of_full nnn hlt).symm.trans h)
  | seImm _ _ | sneImm _ _ | seReg _ _ | sneReg _ _ =>
    cases h; exact .of_frame (frame_skipIf s _) (by simp) (by simp)
  | skp x | sknp x =>
    simp only [exec, execSkp, execSknp] at h
    split at h
    · cases h; exact .of_frame (frame_skipIf s _) (by simp) (by simp)
    · exact .of_raiseFault h
  | ldImm x _ | addImm x _ | ldReg x _ | ldVxDt x =>
    cases h; exact .of_frame ((frame_writeV x _ s).jumpTo _) (by simp [writesReg]) (by simp)
  | ldVxK x => exact .of_frame (execLdVxK_frame h) (by simp [writesReg]) (by simp)
  | orReg x y | andReg x y | xorReg x y =>
    cases h; exact .of_frame ((frame_aluClearFlag _ x y s).jumpTo _) (by simp [writesReg]) (by simp)
  | addReg x _ | sub x _ | shr x _ | subn x _ | shl x _ =>
    cases h; exact .of_frame ((frame_aluWithFlag _ _ _ x _ s).jumpTo _) (by simp [writesReg]) (by simp)
  | rnd x _ => cases h; exact .of_frame (frame_rnd x _ s) (by simp [writesReg]) (by simp [writesPart])
  | ldI _ | addIVx _ | ldFVx _ =>
    cases h; exact .of_frame ((frame_writeI s _).jumpTo _) (by simp) (by simp [writesPart])
  | ldDtVx _ => cases h; exact .of_frame ((frame_writeDT s _).jumpTo _) (by simp) (by simp [writesPart])
  | ldStVx _ => cases h; exact .of_frame ((frame_writeST s _).jumpTo _) (by simp) (by simp [writesPart])
  | drw x y n =>
    cases hb : blockAccepted s.base n with
    | false => exact .of_raiseFault ((exec_of_block_rejected rfl hb).symm.trans h)
    | true =>
      rcases drwWith_of_accepted (p := coreParams) (x := x) (y := y) hb with hd | ⟨a, b, hd⟩
      · cases h.symm.trans hd
        obtain ⟨-, -, -, -, -, hframe⟩ := drawnState_spec coreParams x y n s
        exact .of_frame hframe (by simp [writesReg]) (by simp [writesPart])
      · exact .of_raiseFault (hd.symm.trans h)
  | ldBVx x =>
    simp only [exec, execLdBVx] at h
    split at h
    · cases h; exact .of_frame ((frame_writeMem s _).jumpTo _) (by simp) (by simp [writesPart])
    · exact .of_raiseFault h
  | ldMemVx x =>
    simp only [exec, execLdMemVx] at h
    split at h
    · cases h; exact .of_frame (((frame_writeMem s _).writeI _).jumpTo _) (by simp) (by simp [writesPart])
    · exact .of_raiseFault h
  | ldVxMem x =>
    simp only [exec, execLdVxMem] at h
    split at h
    · cases h
      exact .of_frame (((frame_loadRegs (List.Subset.refl (regsUpTo x)) s.base s).writeI _).jumpTo _)
        (by simp [writesReg, mem_regsUpTo]) (by simp [writesPart])
    · exact .of_raiseFault h

/-- Settles O45: the frames of the instructions against the table, instruction by instruction. -/
theorem onlyListedInstructionsWrite : Obligations.OnlyListedInstructionsWrite :=
  fun _ _ _ h => exec_writesListed h

/-! ## ST and redraw are read by no instruction (R20, R30) -/

/-- s with another sound timer and redraw flag. -/
def State.setUnread (s : State) (st : Byte) (rd : Bool) : State := { s with ST := st, redraw := rd }

theorem State.skipIf_setUnread (s : State) (b : Bool) (st : Byte) (rd : Bool) :
    (s.setUnread st rd).skipIf b = (s.skipIf b).setUnread st rd := by
  cases b <;> rfl

theorem State.loadRegs_setUnread (base : Nat) (rs : List Reg) (st : Byte) (rd : Bool) : ∀ s : State,
    (s.setUnread st rd).loadRegs base rs = (s.loadRegs base rs).setUnread st rd := by
  induction rs with
  | nil => exact fun _ => rfl
  | cons r rs ih => exact fun s => ih (s.writeV r (readByte s.mem (base + r.val)))

@[simp] theorem State.setUnread_mem (s : State) (st : Byte) (rd : Bool) : (s.setUnread st rd).mem = s.mem := rfl
@[simp] theorem State.setUnread_fb (s : State) (st : Byte) (rd : Bool) : (s.setUnread st rd).fb = s.fb := rfl
@[simp] theorem State.setUnread_key (s : State) (st : Byte) (rd : Bool) : (s.setUnread st rd).key = s.key := rfl
@[simp] theorem State.setUnread_sp (s : State) (st : Byte) (rd : Bool) : (s.setUnread st rd).sp = s.sp := rfl
@[simp] theorem State.setUnread_fault (s : State) (st : Byte) (rd : Bool) : (s.setUnread st rd).fault = s.fault := rfl
@[simp] theorem State.setUnread_readV (s : State) (st : Byte) (rd : Bool) (x : Reg) :
    (s.setUnread st rd).readV x = s.readV x := rfl
@[simp] theorem State.setUnread_base (s : State) (st : Byte) (rd : Bool) : (s.setUnread st rd).base = s.base := rfl
@[simp] theorem State.setUnread_keyLine? (s : State) (st : Byte) (rd : Bool) (x : Reg) :
    (s.setUnread st rd).keyLine? x = s.keyLine? x := rfl
@[simp] theorem fetch_setUnread (s : State) (st : Byte) (rd : Bool) : fetch (s.setUnread st rd) = fetch s := rfl

/-- From s with any other ST and redraw, `run` answers t but for these two. -/
def SameButUnread (run : State → Result) (s t : State) : Prop :=
  ∀ st rd, ∃ st' rd', run (s.setUnread st rd) = .next (t.setUnread st' rd')

theorem drwWith_sameButUnread {p : Params} {x y : Reg} {n : Nat} {s t : State} (h : drwWith p x y n s = .next t) :
    SameButUnread (drwWith p x y n) s t := by
  intro st rd
  simp only [drwWith, State.setUnread_base, State.setUnread_mem, State.setUnread_readV, State.setUnread_fb] at h ⊢
  split at h
  · next hb =>
    simp only [hb, if_true]
    split at h
    · cases h; exact ⟨st, rd, rfl⟩
    · cases h; exact ⟨st, true, rfl⟩
  · next hb =>
    cases h
    exact ⟨st, rd, if_neg hb⟩

/-- CLS and DRW set redraw whatever it was, LD ST, Vx sets ST whatever it was, and the other instructions leave both. -/
theorem exec_sameButUnread {i : Instr} {s t : State} (h : exec i s = .next t) : SameButUnread (exec i) s t := by
  intro st rd
  cases i with
  | ldStVx x => cases h; exact ⟨s.readV x, rd, rfl⟩
  | cls => cases h; exact ⟨st, true, rfl⟩
  | drw x y n => exact drwWith_sameButUnread h st rd
  | ret | call _ =>
    simp only [exec, execRet, execCall, State.setUnread_sp] at h ⊢
    split at h
    · next hsp => cases h; exact ⟨st, rd, dif_pos hsp⟩
    · next hsp => cases h; exact ⟨st, rd, dif_neg hsp⟩
  | seImm _ _ | sneImm _ _ | seReg _ _ | sneReg _ _ =>
    cases h; exact ⟨st, rd, congrArg _ (State.skipIf_setUnread ..)⟩
  | skp x | sknp x =>
    simp only [exec, execSkp, execSknp, State.setUnread_keyLine?] at h ⊢
    split at h
    · cases h; exact ⟨st, rd, congrArg _ (State.skipIf_setUnread ..)⟩
    · cases h; exact ⟨st, rd, rfl⟩
  | ldVxK x =>
    simp only [exec, execLdVxK, State.setUnread_key] at h ⊢
    split at h
    · cases h; exact ⟨st, rd, rfl⟩
    · cases h; exact ⟨st, rd, rfl⟩
  | ldBVx x | ldMemVx x | ldVxMem x =>
    simp only [exec, execLdBVx, execLdMemVx, execLdVxMem, State.setUnread_base, State.loadRegs_setUnread] at h ⊢
    split at h
    · next hb => cases h; exact ⟨st, rd, if_pos hb⟩
    · next hb => cases h; exact ⟨st, rd, if_neg hb⟩
  | _ => cases h; exact ⟨st, rd, rfl⟩

/-- Neither the latch check nor the fetch nor the decode reads ST or redraw. -/
theorem step_sameButUnread {s t : State} (h : step s = .next t) : SameButUnread step s t := by
  intro st rd
  simp only [step, cycle, State.setUnread_fault, fetch_setUnread] at h ⊢
  split at h
  · cases h; exact ⟨st, rd, rfl⟩
  · split at h
    · cases h; exact ⟨st, rd, rfl⟩
    · split at h
      · cases h; exact ⟨st, rd, rfl⟩
      · exact exec_sameButUnread h st rd

/-- Settles O48: no STEP reads the two, instruction by instruction. -/
theorem soundTimerAndRedrawAreUnread : Obligations.SoundTimerAndRedrawAreUnread :=
  fun _ _ st rd h => step_sameButUnread h st rd

end Sys2Proof.Machine

/-! PROOFS. Display (40_display.md): DRW under every parameter value, of the CORE, and twice in a row (R111). -/

namespace Sys2Proof.Machine

/-! ## The word of DRW, and the width of its rows -/

theorem encodedAs_drw (x y : Reg) {n : Nat} (hn : n ≤ 15) :
    EncodedAs (.drw x y n) (0xD000 + x.val * 0x100 + y.val * 0x10 + n) :=
  have hN : (BitVec.ofNat 4 n).toNat = n := Nat.mod_eq_of_lt (Nat.lt_succ_of_le hn)
  encodedAs_of_wordP (c := 0xD#4) (n := BitVec.ofNat 4 n) rfl
    (decodeWord_encode (i := .drw x y n) (decide_eq_true hn)) (by rw [hN]; simp)

theorem rowColumns_eq (c : SpriteRowWidth) : rowColumns c = if c = .eight then 8 else 7 := by
  cases c <;> rfl

/-! ## What VF says of a draw -/

/-- A pixel that is on lies on the grid. -/
theorem onGrid_of_pixelAt {fb : Framebuffer} {row col : Nat} (h : pixelAt fb row col = true) : row < 32 ∧ col < 64 := by
  by_contra hoff
  simp [pixelAt_off_grid fb hoff] at h

/-- VF is 1 after a draw over some pixel that was on. -/
theorem drawnState_flag_of_hit {p : Params} {x y : Reg} {n : Nat} {s : State} {row col : Nat}
    (hcovers : s.spriteCovers (rowColumns p.spriteRowWidth) x y n row col = true)
    (hon : pixelAt s.fb row col = true) : (drawnState p x y n s).readV 15 = 0x01#8 := by
  obtain ⟨-, hflag, -⟩ := drawnState_spec p x y n s
  obtain ⟨hrow, hcol⟩ := onGrid_of_pixelAt hon
  exact hflag.2 ⟨row, col, hrow, hcol, hcovers, hon⟩

/-- VF is 0 after a draw over pixels of the grid that were all off. -/
theorem drawnState_flag_of_miss {p : Params} {x y : Reg} {n : Nat} {s : State}
    (hmiss : ∀ row col, row < 32 → col < 64 → s.spriteCovers (rowColumns p.spriteRowWidth) x y n row col = true →
      pixelAt s.fb row col = false) : (drawnState p x y n s).readV 15 = 0x00#8 := by
  obtain ⟨-, hflag, hbit, -⟩ := drawnState_spec p x y n s
  refine hbit.resolve_right fun hone => ?_
  obtain ⟨row, col, hrow, hcol, hcovers, hon⟩ := hflag.1 hone
  simp [hmiss row col hrow hcol hcovers] at hon

/-! ## DRW under every parameter value, and of the CORE -/

/-- Settles O17: the three outcomes of `drwWith`; `drawnState_spec` says what a completed draw leaves. -/
theorem drwUnderEveryParameterValue : Obligations.DrwUnderEveryParameterValue := by
  refine ⟨fun x y n s => rfl, fun p w x y n s hn hw => ?_⟩
  obtain rfl : w = rowColumns p.spriteRowWidth := hw.trans (rowColumns_eq _).symm
  have hword : EncodedAs (.drw x y n) (0xD000 + x.val * 0x100 + y.val * 0x10 + n) := encodedAs_drw x y hn
  have hlatched : ∀ c a b, s.latched c (encode (.drw x y n)).toNat a b =
      s.latched c (0xD000 + x.val * 0x100 + y.val * 0x10 + n) a b := fun c a b => by
    simp only [State.latched, BitVec.ofNat_toNat, BitVec.setWidth_eq, hword.1]
  refine ⟨hword, fun h0 hout => ?memory, fun hin hfault r c hoff hfirst => ?screen, fun hin hdraws => ?drawn⟩
  case memory => rw [← hlatched]; exact drwWith_rejected p x y h0 hout
  case screen => rw [← hlatched]; exact drwWith_offGrid hin hfault hoff hfirst
  case drawn =>
    obtain ⟨hpixels, -, -, hredraw, hpc, hframe⟩ := drawnState_spec p x y n s
    exact ⟨_, drwWith_draws hin hdraws, hpixels,
      fun ⟨_, _, _, _, hcovers, hon⟩ => drawnState_flag_of_hit hcovers hon, drawnState_flag_of_miss, hredraw, hpc, hframe⟩

/-- Settles O16: the CORE's case of O17, where a pixel that is on is on the grid. -/
theorem drwDrawsBySpriteXor : Obligations.DrwDrawsBySpriteXor := by
  intro x y n s hn
  obtain ⟨-, hmemory, hscreen, hdrawn⟩ := drwUnderEveryParameterValue.2 coreParams 8 x y n s hn rfl
  refine ⟨fun hin hgrid => ?_, hmemory, fun hin => hscreen hin rfl⟩
  obtain ⟨t, ht, hpixels, hhit, hmiss, hrest⟩ := hdrawn hin (.inr hgrid)
  refine ⟨t, ht, hpixels, fun ⟨row, col, hcovers, hon⟩ => ?_, fun hoff => ?_, hrest⟩
  · obtain ⟨hrow, hcol⟩ := onGrid_of_pixelAt hon
    exact hhit ⟨row, col, hrow, hcol, hcovers, hon⟩
  · exact hmiss fun row col _ _ => hoff row col

/-! ## The same draw again (corner case (f)) -/

theorem drawnState_readV {p : Params} {x y r : Reg} {n : Nat} {s : State} (hr : r ≠ 15) :
    (drawnState p x y n s).readV r = s.readV r := by
  simp [hr]

/-- A draw leaves memory, I and every register but VF, so the same sprite lies at the same place. -/
theorem spriteCovers_drawnState {p : Params} {x y : Reg} (hx : x ≠ 15) (hy : y ≠ 15) (n columns row col : Nat)
    (s : State) : (drawnState p x y n s).spriteCovers columns x y n row col = s.spriteCovers columns x y n row col := by
  simp only [State.spriteCovers, State.spriteBit, drawnState_readV hx, drawnState_readV hy]
  rfl

theorem offGridBit_drawnState {p : Params} {x y : Reg} (hx : x ≠ 15) (hy : y ≠ 15) (n columns r c : Nat)
    (s : State) : (drawnState p x y n s).offGridBit columns x y n r c = s.offGridBit columns x y n r c := by
  simp only [State.offGridBit, State.spriteBit, drawnState_readV hx, drawnState_readV hy]
  rfl

/-- With every set bit on the grid, the sprite covers no pixel off it. -/
theorem onGrid_of_spriteCovers {s : State} {columns : Nat} {x y : Reg} {n row col : Nat}
    (hgrid : ∀ r c, s.offGridBit columns x y n r c = false) (h : s.spriteCovers columns x y n row col = true) :
    row < 32 ∧ col < 64 := by
  simp only [State.spriteCovers, Bool.and_eq_true, decide_eq_true_eq] at h
  obtain ⟨⟨hrow, hcol⟩, hbit⟩ := h
  have hon := hgrid (row - (s.readV y).toNat) (col - (s.readV x).toNat)
  simp only [State.offGridBit, hbit, Bool.true_and, Bool.not_eq_false', Bool.and_eq_true, decide_eq_true_eq] at hon
  omega

/-- Settles O18: XOR with the same pixels twice is no change, and the second draw finds the first one's picture. -/
theorem drwTwiceRestoresTheScreen : Obligations.DrwTwiceRestoresTheScreen := by
  intro x y n s hx hy hin hgrid
  let t := drawnState coreParams x y n s
  have hfirst : exec (.drw x y n) s = .next t := drwWith_draws hin (.inr hgrid)
  have hsecond : exec (.drw x y n) t = .next (drawnState coreParams x y n t) :=
    drwWith_draws hin (.inr fun r c => (offGridBit_drawnState hx hy n 8 r c s).trans (hgrid r c))
  have hcovers : ∀ row col, t.spriteCovers 8 x y n row col = s.spriteCovers 8 x y n row col := fun row col =>
    spriteCovers_drawnState hx hy n 8 row col s
  obtain ⟨hpixels, -⟩ := drawnState_spec coreParams x y n s
  obtain ⟨hpixels', -⟩ := drawnState_spec coreParams x y n t
  refine ⟨t, _, hfirst, hsecond, framebuffer_ext fun row col hrow hcol => ?_, fun ⟨row, col, hcov, hoff⟩ => ?_,
    fun hon => drawnState_flag_of_miss fun row col hrow hcol hcov => ?_⟩
  · rw [hpixels' row col hrow hcol, hpixels row col hrow hcol]
    simp only [coreParams, rowColumns, hcovers, Bool.xor_assoc, Bool.xor_self, Bool.xor_false]
  · obtain ⟨hrow, hcol⟩ := onGrid_of_spriteCovers hgrid hcov
    refine drawnState_flag_of_hit (row := row) (col := col) ((hcovers row col).trans hcov) ?_
    rw [hpixels row col hrow hcol, hoff]
    exact (Bool.false_xor _).trans hcov
  · have hcov : s.spriteCovers 8 x y n row col = true := (hcovers row col).symm.trans hcov
    rw [hpixels row col hrow hcol, hon row col hcov]
    exact congrArg (true ^^ ·) hcov

end Sys2Proof.Machine

/-! PROOFS. Runs of more than one instruction: RET after CALL, a load after a store, stored code, and the ends of programs
(R130, R132, R204, R205, R296). -/

namespace Sys2Proof.Machine

/-! ## RET after CALL (R130, R132) -/

/-- Settles O23: CALL pushes its own address at the old sp (O21), and RET resumes past the entry it pops (O19). -/
theorem retResumesAfterTheCall : Obligations.RetResumesAfterTheCall := by
  intro nnn s k hk
  obtain ⟨t, ht, hpushed, -, hsp, -, -⟩ := (callPushesItsOwnAddress nnn s).2.1 k hk
  refine ⟨t, ht, fun u husp hutop => ?_⟩
  obtain ⟨v, hv, hvsp, hvpc, -⟩ := (retPopsTheStack.2 u).1 k (by omega)
  exact ⟨v, hv, by rw [hvpc, hutop, hpushed], Fin.ext (hvsp.trans hk)⟩

/-! ## A load after a store (R204, R205) -/

/-- Settles O40: byte k of the stored block is V[k] (O37), and V[k] of the load is byte k of the block (O38). -/
theorem storeThenLoadRestoresRegisters : Obligations.StoreThenLoadRestoresRegisters := by
  intro x s hwf hfits
  obtain ⟨t, ht, hstored, -⟩ := (storeRegistersBlock x s hwf).2.1 hfits
  refine ⟨t, ht, fun u hmem hI => ?_⟩
  obtain ⟨v, hv, hloaded, -⟩ := (loadRegistersBlock x u).2.1 (by rwa [hI])
  exact ⟨v, hv, fun k hk => by rw [hloaded k hk, hI, hmem, hstored k hk]⟩

/-! ## Stored code (R64, R298) -/

/-- Settles O41: the store leaves the two bytes at its own next pc, and the STEP there runs what they decode to (O6). -/
theorem storedInstructionRunsNext : Obligations.StoredInstructionRunsNext := by
  intro x k hk i s hwf hclear hfits haddr hdecode
  obtain ⟨t, ht, hstored, -, -, hpc, -, hkept⟩ := (storeRegistersBlock x s hwf).2.1 hfits
  have hlatch : t.fault = s.fault := hkept .fault (by simp)
  have hnext : t.pc.toNat = s.I.toNat + k := by rw [hpc, BitVec.toNat_add]; simp; omega
  have hhigh : readByte t.mem t.pc.toNat = s.readV ⟨k, by omega⟩ :=
    hnext ▸ hstored ⟨k, by omega⟩ (Fin.le_def.2 (show k ≤ x.val by omega))
  have hlow : readByte t.mem (t.pc.toNat + 1) = s.readV ⟨k + 1, by omega⟩ :=
    hnext ▸ hstored ⟨k + 1, by omega⟩ (Fin.le_def.2 hk)
  refine ⟨t, ht, stepRunsTheDecodedInstruction t i (hlatch.trans hclear) (by omega) ?_⟩
  rw [hhigh, hlow, hdecode]

/-! ## The ends of programs (R296) -/

/-- A STEP that changes nothing can be repeated. -/
theorem core_run_of_step_self {s : State} (h : step s = .next s) : ∀ n, Sys2Proof.core.run n s = .next s
  | 0 => rfl
  | n + 1 => by
    have hone : Sys2Proof.core.step s = .next s := h
    simp only [Host.Core.run, hone]
    exact core_run_of_step_self h n

/-- A jump to where pc stands. -/
theorem execJp_self {nnn : Addr} {s : State} (h : nnn.toNat = s.pc.toNat) : execJp nnn s = .next s := by
  have hpc : addressOf nnn = s.pc := BitVec.eq_of_toNat_eq ((addressOf_toNat nnn).trans h)
  rw [execJp, hpc]; rfl

/-- Settles O49: one STEP changes nothing, so none does. -/
theorem endedProgramsStayPut : Obligations.EndedProgramsStayPut := by
  intro n s hclear hpc hend
  refine core_run_of_step_self ?_ n
  rcases hend with ⟨nnn, hdecode, htarget⟩ | ⟨x, hdecode, hkeys⟩
  · exact (cycle_of_runs exec ⟨hclear, hpc, hdecode⟩).trans (execJp_self htarget)
  · exact (cycle_of_runs exec ⟨hclear, hpc, hdecode⟩).trans (execLdVxK_of_noKey x hkeys)

end Sys2Proof.Machine

/-! PROOFS. Memory (10_state.md): canonical memories are their reads. -/

namespace Sys2Proof.Machine

theorem Memory.wf.tail {c : Host.Cell} {m : Memory} (h : Memory.wf (c :: m)) : Memory.wf m :=
  ⟨(List.pairwise_cons.1 h.1).2, fun d hd => h.2 d (List.mem_cons_of_mem c hd)⟩

/-- The first cell stands below all others. -/
theorem Memory.wf.head_lt {c : Host.Cell} {m : Memory} (h : Memory.wf (c :: m)) : ∀ d ∈ m, c.1 < d.1 :=
  (List.pairwise_cons.1 h.1).1

theorem Memory.wf.head_ne_unlisted {c : Host.Cell} {m : Memory} (h : Memory.wf (c :: m)) : c.2 ≠ unlistedByte c.1 :=
  (h.2 c List.mem_cons_self).2

theorem readByte_head (c : Host.Cell) (m : Memory) : readByte (c :: m) c.1 = c.2 := if_pos rfl

theorem readByte_tail {c : Host.Cell} {a : Nat} (m : Memory) (h : c.1 ≠ a) : readByte (c :: m) a = readByte m a :=
  if_neg h

/-- A memory that reads like one with a first cell lists an address no higher: below its cells it would read as
unlisted. -/
theorem exists_cell_le_head {c : Host.Cell} {m m' : Memory} (hm : Memory.wf (c :: m))
    (h : ∀ a, readByte (c :: m) a = readByte m' a) : ∃ d ∈ m', d.1 ≤ c.1 := by
  by_contra hnone
  have hbelow : readByte m' c.1 = unlistedByte c.1 := readByte_below (by simpa using hnone)
  exact hm.head_ne_unlisted ((readByte_head c m).symm.trans ((h c.1).trans hbelow))

/-- So the first cells of two canonical memories with the same reads are the same. -/
theorem head_eq_of_reads {c d : Host.Cell} {m m' : Memory} (hm : Memory.wf (c :: m)) (hm' : Memory.wf (d :: m'))
    (h : ∀ a, readByte (c :: m) a = readByte (d :: m') a) : c = d := by
  have hle : ∀ {c d : Host.Cell} {m m' : Memory}, Memory.wf (c :: m) → Memory.wf (d :: m') →
      (∀ a, readByte (c :: m) a = readByte (d :: m') a) → d.1 ≤ c.1 := by
    intro c d m m' hm hm' h
    obtain ⟨e, he, hec⟩ := exists_cell_le_head hm h
    rcases List.mem_cons.1 he with rfl | he
    · exact hec
    · exact (hm'.head_lt e he).le.trans hec
  have haddr : c.1 = d.1 := le_antisymm (hle hm' hm fun a => (h a).symm) (hle hm hm' h)
  have hbyte : c.2 = d.2 := by
    rw [← readByte_head c m, h, haddr, readByte_head]
  exact Prod.ext haddr hbyte

/-- And so do what follows the first cells: at that address both read as unlisted. -/
theorem tail_reads_eq {c : Host.Cell} {m m' : Memory} (hm : Memory.wf (c :: m)) (hm' : Memory.wf (c :: m'))
    (h : ∀ a, readByte (c :: m) a = readByte (c :: m') a) (a : Nat) : readByte m a = readByte m' a := by
  by_cases ha : c.1 = a
  · subst ha
    rw [readByte_below hm.head_lt, readByte_below hm'.head_lt]
  · rw [← readByte_tail m ha, h, readByte_tail m' ha]

/-- Settles O42, cell by cell. -/
theorem canonicalMemoryIsItsReads : Obligations.CanonicalMemoryIsItsReads := by
  intro m
  induction m with
  | nil =>
    intro m' _ hm' h
    cases m' with
    | nil => rfl
    | cons d m' =>
      obtain ⟨e, he, -⟩ := exists_cell_le_head hm' fun a => (h a).symm
      cases he
  | cons c m ih =>
    intro m' hm hm' h
    cases m' with
    | nil =>
      obtain ⟨e, he, -⟩ := exists_cell_le_head hm h
      cases he
    | cons d m' =>
      obtain rfl := head_eq_of_reads hm hm' h
      rw [ih m' hm.tail hm'.tail (tail_reads_eq hm hm' h)]

end Sys2Proof.Machine

/-! PROOFS. Parameters and the host interface (00_scope.md R6, 60_exceptions.md): the CORE's values, TIMER_COUPLING (R262),
and that every operation answers (R270). -/

namespace Sys2Proof.Machine

/-! ## The CORE's parameter values (R6) -/

theorem stepWith_core {s t : State} (h : step s = .next t) : stepWith coreParams s = .next (t, none) := by
  by_cases hclear : s.fault = none
  · exact stepWith_of_cycle hclear ((cycle_execWith_core s).trans h)
  · cases h.symm.trans (step_of_latched hclear)
    exact stepWith_of_latched coreParams hclear

/-- Settles O50. -/
theorem coreParametersGiveTheCore : Obligations.CoreParametersGiveTheCore :=
  ⟨fun i s => (exec_eq_execWith_core i s).symm, fun _ _ => stepWith_core, resetWith_coreParams⟩

/-! ## TIMER_COUPLING (R262) -/

/-- A coupled STEP that ends with the latch clear, or that ticks on a fault, ends with one TICK. -/
theorem endOfStep_of_ticks {onFault : Bool} {t : State} (h : t.fault = none ∨ onFault = true) :
    endOfStep (.perStep onFault) t = (t.tick.1, some t.tick.2) :=
  if_pos (by simpa using h)

/-- A coupled STEP that faults ends with none where PER_STEP_TICK_ON_FAULT says so. -/
theorem endOfStep_of_fault {t : State} (h : t.fault ≠ none) : endOfStep (.perStep false) t = (t, none) :=
  if_neg (by simpa using h)

/-- Settles O51: a STEP from a clear latch is the cycle and then `endOfStep`. -/
theorem timerCouplingAddsOneTick : Obligations.TimerCouplingAddsOneTick := by
  intro p s t hclear hcycle
  have hstep : stepWith p s = .next (endOfStep p.timerCoupling t) := stepWith_of_cycle hclear hcycle
  refine ⟨fun hp => ?decoupled, fun onFault hp => ⟨fun hticks => ?ticks, fun hfault honFault => ?quiet⟩⟩
  case decoupled => rw [hstep, hp]; rfl
  case ticks =>
    refine ⟨t.tick.1, ?_, countDown_toNat t.DT, countDown_toNat t.ST, rfl, frame_tick t⟩
    rw [hstep, hp, endOfStep_of_ticks hticks]; rfl
  case quiet => rw [hstep, hp, honFault, endOfStep_of_fault hfault]

/-! ## Every operation answers (R270) -/

/-- Settles O56: `exists_hostApply` goes over the operations, and `execWith_cases` under it over the instructions. -/
theorem everyHostOperationAnswers : Obligations.EveryHostOperationAnswers := exists_hostApply

end Sys2Proof.Machine
